-- ==== Sys2Proof/Word.lean ====
section
/-! DEFINITION. The word types of SLIDESHOW-PXD (00_scope.md R5, R7). -/

namespace Sys2Proof

/-- A 32-bit value: a command word, an operand word, a register or a coordinate (REG_WIDTH and COORD_WIDTH of R5). -/
abbrev Word := BitVec 32

/-- An 8-bit value: a row-buffer byte, a channel before quantization (CHANNEL_WIDTH of R5), a selector, index or weight. -/
abbrev Byte := BitVec 8

/-- A 16-bit RGB565 color (COLOR_WIDTH of R5; layout R9). -/
abbrev Color := BitVec 16

end Sys2Proof
end

