-- ==== Sys2Proof/Config.lean ====
section
/-! DEFINITION. What an implementation fixes (the parameters of 00_scope.md R5) and the free values of the model
(93_implementation_defined.md U1 and U2). -/

namespace Sys2Proof

/-- PALETTE_LAYOUT (R5, R42, D12): which bytes of a palette word hold R, G and B. -/
inductive PaletteLayout where
  /-- DOC_ABGR, the default: file bytes alpha, blue, green, red. -/
  | docAbgr
  /-- BMP_BGRX: file bytes blue, green, red, unused. -/
  | bmpBgrx
  deriving DecidableEq, Repr

/-- MIX_ROUNDING (R5, R181, D11): the rounding of the alpha mix. -/
inductive MixRounding where
  /-- TWO_FLOOR, the default: each product is divided by 255 and floored on its own. -/
  | twoFloor
  /-- ONE_FLOOR: the sum of the products is divided by 255 and floored. -/
  | oneFloor
  deriving DecidableEq, Repr

/-- BLEND_ORDER (R5, R157, D10): which operand of the mix is the background. -/
inductive BlendOrder where
  /-- BG_IS_A, the default: `mix(BGCOLOR, p, A)`. -/
  | bgIsA
  /-- PIXEL_IS_A: `mix(p, BGCOLOR, A)`. -/
  | pixelIsA
  deriving DecidableEq, Repr

/-- RESET_STYLE (R5, R230, D21): how the reset input is sampled and for how many clock edges it is held.
No rule depends on it. -/
inductive ResetStyle where
  | synchronous (edges : Nat)
  | asynchronous (edges : Nat)
  deriving DecidableEq, Repr

/-- The parameters of R5. "A model takes each `parameter` as an argument": the state carries one value of this type,
no step writes it, and the statements hold for every value of it. -/
structure Params where
  /-- ROWBUF_BYTES: the row buffer's capacity in bytes (R5, R43, D13). -/
  rowbufBytes : Nat
  paletteLayout : PaletteLayout
  mixRounding : MixRounding
  blendOrder : BlendOrder
  /-- BLOCK_BASE: where the block sits on a host bus, if anywhere; no rule depends on it (R65). -/
  blockBase : Option Nat
  resetStyle : ResetStyle
  deriving DecidableEq, Repr

/-- R5's defaults; ROWBUF_BYTES = 64 is the value of the spec's vectors (95_test_vectors.md), since R5 names no default.
DESIGN CHOICE (unsafe where a claim rests on it; log entries 1 and 12). -/
def Params.standard : Params :=
  { rowbufBytes := 64
    paletteLayout := .docAbgr
    mixRounding := .twoFloor
    blendOrder := .bgIsA
    blockBase := none
    resetStyle := .synchronous 1 }

/-- FREE VALUE (U1; safe, log entry 2): what palette word `index` holds when nothing has written it since reset number
`epoch`. Any 32 bits, fixed until written. -/
opaque Config.unwrittenWord (epoch index : Nat) : Word

/-- FREE VALUE (U2; safe, log entry 2): what row-buffer byte `addr` holds when nothing has written it since reset number
`epoch`. Any 8 bits, fixed until written. -/
opaque Config.unwrittenByte (epoch addr : Nat) : Byte

end Sys2Proof
end

