-- ==== Sys2Proof/Syntax.lean ====
section
/-! DEFINITION. The 17 commands of the block (30_encoding.md R83), with the operands R82 assembles for each. -/

namespace Sys2Proof

/-- One command: a CMD word and its DATA word, taken together in one command-port transfer (R44, R80). -/
structure Command where
  /-- `cmd_word`, the CMD word. -/
  word : Word
  /-- `cmd_data`, the DATA word. -/
  data : Word
  deriving DecidableEq, Repr

/-- One constructor per row of spec/opcode_table.json. An operand has the width of the field it is taken from (R82), so
every term names a command the encoding admits. A DATA word that a command ignores is no operand. -/
inductive Instr where
  /-- NOP (R100). -/
  | nop
  /-- CFG_WRITE sel, value (R101). -/
  | cfgWrite (sel : Byte) (value : Word)
  /-- CFG_READ sel (R102). -/
  | cfgRead (sel : Byte)
  /-- PAL_WRITE idx, word (R103). -/
  | palWrite (idx : Byte) (word : Word)
  /-- PAL_READ idx (R104). -/
  | palRead (idx : Byte)
  /-- ROWBUF_WRITE addr, word (R134). -/
  | rowbufWrite (addr : BitVec 16) (word : Word)
  /-- ROWBUF_READ addr (R135). -/
  | rowbufRead (addr : BitVec 16)
  /-- OPEN (R105). -/
  | openBlock
  /-- CLOSE (R108). -/
  | closeBlock
  /-- ERR_CLEAR (R109). -/
  | errClear
  /-- DECODE_ROW row (R162). -/
  | decodeRow (row : Word)
  /-- DECODE_PIXEL col (R161). -/
  | decodePixel (col : Word)
  /-- ROWADDR row (R133). -/
  | rowAddr (row : Word)
  /-- QUANT r, g, b (R183). -/
  | quant (r g b : Byte)
  /-- MIX colorA, colorB, w (R184). -/
  | mix (colorA colorB : Color) (w : Byte)
  /-- PAL_LOOKUP idx (R185). -/
  | palLookup (idx : Byte)
  /-- MASKSHIFT mask (R163). -/
  | maskShift (mask : Word)
  deriving DecidableEq, Repr

end Sys2Proof
end

