-- ==== Sys2Proof/Machine/State.lean ====
section
/-! DEFINITION. The state of the block and of the two agents at its ports (10_state.md), as plain data, and the state
after reset (70_reset_and_hazards.md R230). -/

namespace Sys2Proof.Machine

/-- The row buffer's contents: (address, byte) pairs, addresses strictly rising. An address not listed has not been
written since reset (R43, R230). -/
abbrev Memory := List Host.Cell

/-- The palette RAM's contents: (index, word) pairs in the same form (R41). -/
abbrev Palette := List (Nat × Word)

/-- One 32-bit value per channel: the masks (R30), the shifts (R38) or the effective masks (R39). -/
structure Channels where
  r : Word
  g : Word
  b : Word
  a : Word
  deriving DecidableEq, Repr

/-- The header group, selectors 0x00 to 0x09 (R23 to R31). -/
structure HeaderRegs where
  bpp : BitVec 16
  compression : Word
  width : Word
  height : Word
  colorsUsed : Word
  mask : Channels
  pixelOffset : Word
  deriving DecidableEq, Repr

/-- The draw group, selectors 0x0A to 0x0C (R33, R34). -/
structure DrawRegs where
  bgcolor : Color
  originX : Word
  originY : Word
  deriving DecidableEq, Repr

/-- The derived registers, selectors 0x11 to 0x1C (R35 to R39). -/
structure DerivedRegs where
  imgW : Word
  imgH : Word
  stride : Word
  palSize : Word
  shift : Channels
  emask : Channels
  deriving DecidableEq, Repr

/-- One record of the pixel output port: `pix_x`, `pix_y`, `pix_color` (R46). -/
structure PixelRecord where
  x : Word
  y : Word
  color : Color
  deriving DecidableEq, Repr

/-- One response: `rsp_status`, `rsp_data` (R45). -/
structure Response where
  status : BitVec 4
  data : Word
  deriving DecidableEq, Repr

/-- A DECODE_ROW in progress that waits on the sink: its row index and column counter, the block's hidden state (R48), and
the record of that column, which the pixel output port offers (R46). -/
structure RowJob where
  row : Word
  col : Nat
  offered : PixelRecord
  deriving DecidableEq, Repr

/-- The input `pix_ready` as the sink will drive it (R46): for every record offered, or for the next `n` records offered
and then never. Delays have no length in the model (R238; log entry 3). -/
inductive SinkReady where
  | always
  | records (n : Nat)
  deriving DecidableEq, Repr

/-- The error kinds of R200. -/
inductive ErrorKind where
  | invalidFormat
  /-- Never raised by the block: it reads no stream (D27). -/
  | truncatedData
  | unsupportedFormat
  | outOfRangeIndex
  | range
  | badAddress
  | capacity
  | illegalCommand
  deriving DecidableEq, Repr

/-- Everything the spec gives the machine. -/
structure State where
  /-- The parameters of R5; no step writes them. -/
  params : Params
  header : HeaderRegs
  draw : DrawRegs
  /-- STATUS.OPEN (R32). -/
  isOpen : Bool
  /-- STATUS.ERR (R32, R202). -/
  err : BitVec 4
  derived : DerivedRegs
  pal : Palette
  rb : Memory
  /-- The model's own field: how many times reset was asserted; it selects the free values of unwritten RAM. -/
  epoch : Nat
  /-- The commands the host has yet to send, first to last. The head is on the command port: `cmd_valid` is 1 while the
  list is not empty (R44). -/
  cmds : List Command
  /-- The input `rsp_ready` (R45). -/
  rspReady : Bool
  /-- The response port: `rsp_valid` is 1 while a response is held (R45). -/
  rsp : Option Response
  /-- The input `pix_ready` (R46). -/
  sink : SinkReady
  /-- The DECODE_ROW in progress, if one waits on the sink (R48). `pix_valid` is 1 exactly while one does, and `pix_x`,
  `pix_y`, `pix_color` are the record it offers (R46; log entry 9). -/
  job : Option RowJob
  /-- The reset input (R230). -/
  rst : Bool
  /-- The records the sink accepted, first to last (R239). -/
  records : List PixelRecord
  /-- The responses the host took, first to last (R239). -/
  responses : List Response
  deriving DecidableEq, Repr

/-- Why the machine stops. -/
inductive Fault where
  /-- A pixel extractor would read a row-buffer byte at or past ROWBUF_BYTES, which does not exist (R43, R62). Raised by
  DECODE_PIXEL, DECODE_ROW and a resumed DECODE_ROW, only in a state no run reaches (R66). Safe: the machine stops where
  the spec has no behaviour (log entry 10). -/
  | rowBufferOverrun
  deriving DecidableEq, Repr

/-- Why an instruction has no meaning. -/
inductive Refusal where
  /-- Raised by an arm of `exec` whose instruction has no meaning yet. Safe. No arm of this model raises it. -/
  | notModelled (mnemonic : String)
  deriving DecidableEq, Repr

/-- What a step answers. -/
abbrev Result := Host.Outcome State Fault Refusal

/-- Four zero channels (R40). -/
def Channels.zero : Channels := { r := 0, g := 0, b := 0, a := 0 }

/-- The header group after reset: every register 0 (R23, R230). -/
def HeaderRegs.reset : HeaderRegs :=
  { bpp := 0, compression := 0, width := 0, height := 0, colorsUsed := 0, mask := .zero, pixelOffset := 0 }

/-- The draw group after reset: BGCOLOR 0x0000, the origin 0 (R33, R34, R230). -/
def DrawRegs.reset : DrawRegs := { bgcolor := 0, originX := 0, originY := 0 }

/-- The derived registers of the closed state: all 0 (R40). -/
def DerivedRegs.closed : DerivedRegs :=
  { imgW := 0, imgH := 0, stride := 0, palSize := 0, shift := .zero, emask := .zero }

/-- The state after reset for given parameters (R230): every register at its reset value, no command in progress,
`rsp_valid = pix_valid = 0`, `cmd_ready = 1`, both RAMs unwritten. What the host and the sink do is the log's (entries 3
to 6 and 8). -/
def State.resetWith (p : Params) : State :=
  { params := p
    header := .reset
    draw := .reset
    isOpen := false
    err := 0
    derived := .closed
    pal := []
    rb := []
    epoch := 0
    cmds := []
    rspReady := true
    rsp := none
    sink := .always
    job := none
    rst := false
    records := []
    responses := [] }

/-- The machine right after reset, with the standard parameters. -/
def State.reset : State := State.resetWith Params.standard

end Sys2Proof.Machine
end

