-- ==== Sys2Proof/Machine/Operands.lean ====
section
/-! DEFINITION. Operand forms: byte order (20_memory.md R60, 00_scope.md R8), signed reading (R7), and the register
selectors of 10_state.md R23. -/

namespace Sys2Proof.Machine

/-- `s32`: a 32-bit value read as two's complement (R7). -/
def s32 (v : Word) : Int := v.toInt

/-- `u32`: an integer modulo 2^32 (R7). -/
def u32 (n : Int) : Word := BitVec.ofInt 32 n

/-- Byte `k` of a word: bits `[8k+7:8k]` (R60). -/
def byteOf (v : Word) (k : Nat) : Byte := v.extractLsb' (8 * k) 8

/-- The four bytes of a word, lowest address first (R60). -/
def wordBytes (v : Word) : List Byte := [byteOf v 0, byteOf v 1, byteOf v 2, byteOf v 3]

/-- The little-endian value of bytes, lowest address first (R8, R60). -/
def leValue : List Byte → Nat
  | [] => 0
  | b :: bs => b.toNat + 256 * leValue bs

/-- The assigned selectors of R23, by register name. -/
inductive Reg where
  | BPP | COMPRESSION | WIDTH | HEIGHT | COLORS_USED | MASK_R | MASK_G | MASK_B | MASK_A | PIXEL_OFFSET
  | BGCOLOR | ORIGIN_X | ORIGIN_Y
  | STATUS | IMG_W | IMG_H | STRIDE | PAL_SIZE | SHIFT_R | SHIFT_G | SHIFT_B | SHIFT_A
  | EMASK_R | EMASK_G | EMASK_B | EMASK_A
  deriving DecidableEq, Repr

/-- The register groups of R23 and R24. The derived group, STATUS in it, is read-only. -/
inductive RegGroup where
  | header | draw | derived
  deriving DecidableEq, Repr

/-- The selector column of R23. -/
def Reg.sel : Reg → Byte
  | .BPP => 0x00
  | .COMPRESSION => 0x01
  | .WIDTH => 0x02
  | .HEIGHT => 0x03
  | .COLORS_USED => 0x04
  | .MASK_R => 0x05
  | .MASK_G => 0x06
  | .MASK_B => 0x07
  | .MASK_A => 0x08
  | .PIXEL_OFFSET => 0x09
  | .BGCOLOR => 0x0A
  | .ORIGIN_X => 0x0B
  | .ORIGIN_Y => 0x0C
  | .STATUS => 0x10
  | .IMG_W => 0x11
  | .IMG_H => 0x12
  | .STRIDE => 0x13
  | .PAL_SIZE => 0x14
  | .SHIFT_R => 0x15
  | .SHIFT_G => 0x16
  | .SHIFT_B => 0x17
  | .SHIFT_A => 0x18
  | .EMASK_R => 0x19
  | .EMASK_G => 0x1A
  | .EMASK_B => 0x1B
  | .EMASK_A => 0x1C

/-- The register a selector names; none for a reserved selector (R23). -/
def Reg.ofSel (sel : Byte) : Option Reg :=
  match sel.toNat with
  | 0x00 => some .BPP
  | 0x01 => some .COMPRESSION
  | 0x02 => some .WIDTH
  | 0x03 => some .HEIGHT
  | 0x04 => some .COLORS_USED
  | 0x05 => some .MASK_R
  | 0x06 => some .MASK_G
  | 0x07 => some .MASK_B
  | 0x08 => some .MASK_A
  | 0x09 => some .PIXEL_OFFSET
  | 0x0A => some .BGCOLOR
  | 0x0B => some .ORIGIN_X
  | 0x0C => some .ORIGIN_Y
  | 0x10 => some .STATUS
  | 0x11 => some .IMG_W
  | 0x12 => some .IMG_H
  | 0x13 => some .STRIDE
  | 0x14 => some .PAL_SIZE
  | 0x15 => some .SHIFT_R
  | 0x16 => some .SHIFT_G
  | 0x17 => some .SHIFT_B
  | 0x18 => some .SHIFT_A
  | 0x19 => some .EMASK_R
  | 0x1A => some .EMASK_G
  | 0x1B => some .EMASK_B
  | 0x1C => some .EMASK_A
  | _ => none

/-- The group column of R23. -/
def Reg.group : Reg → RegGroup
  | .BPP | .COMPRESSION | .WIDTH | .HEIGHT | .COLORS_USED | .MASK_R | .MASK_G | .MASK_B | .MASK_A | .PIXEL_OFFSET => .header
  | .BGCOLOR | .ORIGIN_X | .ORIGIN_Y => .draw
  | .STATUS | .IMG_W | .IMG_H | .STRIDE | .PAL_SIZE | .SHIFT_R | .SHIFT_G | .SHIFT_B | .SHIFT_A
  | .EMASK_R | .EMASK_G | .EMASK_B | .EMASK_A => .derived

end Sys2Proof.Machine
end

