-- ==== Sys2Proof/Machine/Color.lean ====
section
/-! DEFINITION. The color datapath (43_color_datapath.md R180, R181; 10_state.md R42; 00_scope.md R9). -/

namespace Sys2Proof.Machine

/-- The three channel numbers of an RGB565 color: red below 32, green below 64, blue below 32 (R9). -/
structure Lanes where
  r : Nat
  g : Nat
  b : Nat
  deriving DecidableEq, Repr

/-- `unpack565` (R9). -/
def unpack565 (c : Color) : Lanes :=
  { r := (c.extractLsb' 11 5).toNat, g := (c.extractLsb' 5 6).toNat, b := (c.extractLsb' 0 5).toNat }

/-- `pack565` (R9). -/
def pack565 (l : Lanes) : Color := BitVec.ofNat 16 ((l.r <<< 11) ||| (l.g <<< 5) ||| l.b)

/-- `quantize` (R180): the top 5, 6 and 5 bits of the channels, without rounding. -/
def quantize (r g b : Byte) : Color := pack565 { r := r.toNat >>> 3, g := g.toNat >>> 2, b := b.toNat >>> 3 }

/-- One channel of the mix (R181). -/
def mixChannel (rounding : MixRounding) (w ca cb : Nat) : Nat :=
  match rounding with
  | .twoFloor => ca * (255 - w) / 255 + cb * w / 255
  | .oneFloor => (ca * (255 - w) + cb * w) / 255

/-- `mix` (R181): each channel on its own. -/
def mixColor (rounding : MixRounding) (a b : Color) (w : Byte) : Color :=
  pack565
    { r := mixChannel rounding w.toNat (unpack565 a).r (unpack565 b).r
      g := mixChannel rounding w.toNat (unpack565 a).g (unpack565 b).g
      b := mixChannel rounding w.toNat (unpack565 a).b (unpack565 b).b }

/-- A palette word's color, quantized: `quantize(palRGB(e))` with `palRGB` of R42. -/
def paletteColor (layout : PaletteLayout) (e : Word) : Color :=
  match layout with
  | .docAbgr => quantize (byteOf e 3) (byteOf e 2) (byteOf e 1)
  | .bmpBgrx => quantize (byteOf e 2) (byteOf e 1) (byteOf e 0)

/-- `extract(v, m, s)` (R158): one channel of a 32-bit pixel, its low 8 bits. -/
def extractChannel (v m s : Word) : Byte := ((v &&& m) >>> s.toNat).setWidth 8

/-- The blend of R157 of a quantized pixel against the background. -/
def blend (p : Params) (bg pixel : Color) (alpha : Byte) : Color :=
  match p.blendOrder with
  | .bgIsA => mixColor p.mixRounding bg pixel alpha
  | .pixelIsA => mixColor p.mixRounding pixel bg alpha

end Sys2Proof.Machine
end

