-- ==== Sys2Proof/Decode.lean ====
section
/-! DEFINITION. Decoding a command (30_encoding.md R80 to R86): total on every CMD and DATA word, refusing by name. After
it the encoder, written from the same tables. -/

namespace Sys2Proof

/-- The five formats of R81. -/
inductive Format where
  | N | S | I | A | W
  deriving DecidableEq, Repr

/-- The rows of R83's opcode map, by mnemonic. -/
inductive Opcode where
  | nop | cfgWrite | cfgRead | palWrite | palRead | rowbufWrite | rowbufRead | openBlock | closeBlock | errClear
  | decodeRow | decodePixel | rowAddr | quant | mix | palLookup | maskShift
  deriving DecidableEq, Repr

/-- Why a CMD word is illegal (R84). -/
inductive DecodeError where
  /-- OP is not one of the 17 assigned values. -/
  | unassignedOp (op : Byte)
  /-- OP is assigned and a reserved bit of its format is 1. -/
  | reservedBits (cmd : Word)
  deriving DecidableEq, Repr

/-- The OP column of R83. -/
def Opcode.op : Opcode → Byte
  | .nop => 0x00
  | .cfgWrite => 0x01
  | .cfgRead => 0x02
  | .palWrite => 0x03
  | .palRead => 0x04
  | .rowbufWrite => 0x05
  | .rowbufRead => 0x06
  | .openBlock => 0x07
  | .closeBlock => 0x08
  | .errClear => 0x09
  | .decodeRow => 0x10
  | .decodePixel => 0x11
  | .rowAddr => 0x12
  | .quant => 0x20
  | .mix => 0x21
  | .palLookup => 0x22
  | .maskShift => 0x23

/-- The format column of R83. -/
def Opcode.format : Opcode → Format
  | .nop | .openBlock | .closeBlock | .errClear | .decodeRow | .decodePixel | .rowAddr | .quant | .maskShift => .N
  | .cfgWrite | .cfgRead => .S
  | .palWrite | .palRead | .palLookup => .I
  | .rowbufWrite | .rowbufRead => .A
  | .mix => .W

/-- The row with a given OP, if the value is assigned (R83, R84). -/
def Opcode.ofOp (op : Byte) : Option Opcode :=
  match op.toNat with
  | 0x00 => some .nop
  | 0x01 => some .cfgWrite
  | 0x02 => some .cfgRead
  | 0x03 => some .palWrite
  | 0x04 => some .palRead
  | 0x05 => some .rowbufWrite
  | 0x06 => some .rowbufRead
  | 0x07 => some .openBlock
  | 0x08 => some .closeBlock
  | 0x09 => some .errClear
  | 0x10 => some .decodeRow
  | 0x11 => some .decodePixel
  | 0x12 => some .rowAddr
  | 0x20 => some .quant
  | 0x21 => some .mix
  | 0x22 => some .palLookup
  | 0x23 => some .maskShift
  | _ => none

/-- How many low bits of FIELDS a format assigns; the others are reserved (R81). -/
def Format.fieldBits : Format → Nat
  | .N => 0
  | .S | .I | .W => 8
  | .A => 16

/-- The mask column of R83: OP and the reserved bits. -/
def Opcode.mask (o : Opcode) : Word := BitVec.allOnes 32 <<< o.format.fieldBits

/-- The match column of R83: OP with every other bit 0. -/
def Opcode.matchBits (o : Opcode) : Word := o.op.setWidth 32 <<< 24

/-- Operand assembly (R82) for a legal CMD word. -/
def Opcode.assemble (o : Opcode) (cmd data : Word) : Instr :=
  match o with
  | .nop => .nop
  | .cfgWrite => .cfgWrite (cmd.extractLsb' 0 8) data
  | .cfgRead => .cfgRead (cmd.extractLsb' 0 8)
  | .palWrite => .palWrite (cmd.extractLsb' 0 8) data
  | .palRead => .palRead (cmd.extractLsb' 0 8)
  | .rowbufWrite => .rowbufWrite (cmd.extractLsb' 0 16) data
  | .rowbufRead => .rowbufRead (cmd.extractLsb' 0 16)
  | .openBlock => .openBlock
  | .closeBlock => .closeBlock
  | .errClear => .errClear
  | .decodeRow => .decodeRow data
  | .decodePixel => .decodePixel data
  | .rowAddr => .rowAddr data
  | .quant => .quant (data.extractLsb' 16 8) (data.extractLsb' 8 8) (data.extractLsb' 0 8)
  | .mix => .mix (data.extractLsb' 0 16) (data.extractLsb' 16 16) (cmd.extractLsb' 0 8)
  | .palLookup => .palLookup (cmd.extractLsb' 0 8)
  | .maskShift => .maskShift data

/-- R85: look the row up by OP, check the reserved bits, assemble the operands. -/
def decode (cmd data : Word) : Except DecodeError Instr :=
  match Opcode.ofOp (cmd.extractLsb' 24 8) with
  | none => .error (.unassignedOp (cmd.extractLsb' 24 8))
  | some o => if cmd &&& o.mask = o.matchBits then .ok (o.assemble cmd data) else .error (.reservedBits cmd)

/-- A CMD word with a given row's OP and the given low 16 bits of FIELDS (R80, R81: FIELDS[23:16] is reserved in every
format). -/
def Opcode.cmdWord (o : Opcode) (fields : BitVec 16) : Word := o.matchBits ||| fields.setWidth 32

/-- An 8-bit field in FIELDS[7:0], for formats S, I and W (R81). -/
def lowField (f : Byte) : BitVec 16 := f.setWidth 16

/-- The command of an instruction, from R87's table; an ignored DATA word is 0. -/
def encode : Instr → Command
  | .nop => ⟨Opcode.nop.cmdWord 0, 0⟩
  | .cfgWrite sel value => ⟨Opcode.cfgWrite.cmdWord (lowField sel), value⟩
  | .cfgRead sel => ⟨Opcode.cfgRead.cmdWord (lowField sel), 0⟩
  | .palWrite idx word => ⟨Opcode.palWrite.cmdWord (lowField idx), word⟩
  | .palRead idx => ⟨Opcode.palRead.cmdWord (lowField idx), 0⟩
  | .rowbufWrite addr word => ⟨Opcode.rowbufWrite.cmdWord addr, word⟩
  | .rowbufRead addr => ⟨Opcode.rowbufRead.cmdWord addr, 0⟩
  | .openBlock => ⟨Opcode.openBlock.cmdWord 0, 0⟩
  | .closeBlock => ⟨Opcode.closeBlock.cmdWord 0, 0⟩
  | .errClear => ⟨Opcode.errClear.cmdWord 0, 0⟩
  | .decodeRow row => ⟨Opcode.decodeRow.cmdWord 0, row⟩
  | .decodePixel col => ⟨Opcode.decodePixel.cmdWord 0, col⟩
  | .rowAddr row => ⟨Opcode.rowAddr.cmdWord 0, row⟩
  | .quant r g b => ⟨Opcode.quant.cmdWord 0, (r.setWidth 32 <<< 16) ||| (g.setWidth 32 <<< 8) ||| b.setWidth 32⟩
  | .mix colorA colorB w => ⟨Opcode.mix.cmdWord (lowField w), (colorB.setWidth 32 <<< 16) ||| colorA.setWidth 32⟩
  | .palLookup idx => ⟨Opcode.palLookup.cmdWord (lowField idx), 0⟩
  | .maskShift mask => ⟨Opcode.maskShift.cmdWord 0, mask⟩

/-- The opcode-map row of an instruction (R83). -/
def Instr.opcode : Instr → Opcode
  | .nop => .nop
  | .cfgWrite _ _ => .cfgWrite
  | .cfgRead _ => .cfgRead
  | .palWrite _ _ => .palWrite
  | .palRead _ => .palRead
  | .rowbufWrite _ _ => .rowbufWrite
  | .rowbufRead _ => .rowbufRead
  | .openBlock => .openBlock
  | .closeBlock => .closeBlock
  | .errClear => .errClear
  | .decodeRow _ => .decodeRow
  | .decodePixel _ => .decodePixel
  | .rowAddr _ => .rowAddr
  | .quant _ _ _ => .quant
  | .mix _ _ _ => .mix
  | .palLookup _ => .palLookup
  | .maskShift _ => .maskShift

/-- The command whose bits are `w`, numbered as spec/opcode_table.json numbers them: CMD is bits 31..0, DATA bits 63..32
(R80). Every bit from `nbits` up is 0. -/
def tableCommand (nbits w : Nat) : Command :=
  ⟨BitVec.ofNat 32 (w % 2 ^ nbits), BitVec.ofNat 32 (w % 2 ^ nbits / 2 ^ 32)⟩

/-- What the decoder reads from the command whose bits are `w`. -/
def decodeTableWord (nbits w : Nat) : Option Instr :=
  match decode (tableCommand nbits w).word (tableCommand nbits w).data with
  | .ok i => some i
  | .error _ => none

end Sys2Proof
end

