-- ==== Sys2Proof/Machine/Flags.lean ====
section
/-! DEFINITION. The block's flags are the STATUS fields OPEN and ERR (00_scope.md R10, 10_state.md R32). -/

namespace Sys2Proof.Machine

/-- The numeric code of an error kind (60_exceptions.md R200). -/
def ErrorKind.code : ErrorKind → BitVec 4
  | .invalidFormat => 1
  | .truncatedData => 2
  | .unsupportedFormat => 3
  | .outOfRangeIndex => 4
  | .range => 5
  | .badAddress => 6
  | .capacity => 7
  | .illegalCommand => 8

/-- ERR after a command raised `e` (R202): the first error since the last clear wins. -/
def stickyErr (err : BitVec 4) (e : ErrorKind) : BitVec 4 := if err = 0 then e.code else err

/-- STATUS as CFG_READ answers it: OPEN in bit 0, ERR in bits 11:8, every other bit 0 (R32, R102). -/
def statusWord (s : State) : Word := (s.err.setWidth 32 <<< 8) ||| (BitVec.ofBool s.isOpen).setWidth 32

/-- The output `err_pending` (R47). -/
def errPending (s : State) : Bool := s.err ≠ 0

end Sys2Proof.Machine
end

