-- ==== Sys2Proof/Machine/Memory.lean ====
section
/-! DEFINITION. The two RAMs as sparse lists in one canonical form: keys strictly rising, a key listed exactly when it has
been written since reset. An unlisted key has no written value; what it reads as is the free value that Ops.lean supplies
(93_implementation_defined.md U1, U2). -/

namespace Sys2Proof.Machine

/-- The value written at `key`, if one was. -/
def Ram.get {α : Type} : List (Nat × α) → Nat → Option α
  | [], _ => none
  | (k, v) :: rest, key => if k = key then some v else Ram.get rest key

/-- Write `v` at `key`, keeping the keys rising. -/
def Ram.set {α : Type} : List (Nat × α) → Nat → α → List (Nat × α)
  | [], key, v => [(key, v)]
  | (k, w) :: rest, key, v =>
    if key < k then (key, v) :: (k, w) :: rest
    else if key = k then (key, v) :: rest
    else (k, w) :: Ram.set rest key v

/-- The canonical form of a RAM of `size` entries. -/
abbrev Ram.wf {α : Type} (size : Nat) (m : List (Nat × α)) : Prop :=
  m.Pairwise (fun x y => x.1 < y.1) ∧ ∀ x ∈ m, x.1 < size

/-- The canonical form of a row buffer of `size` bytes (R43). -/
abbrev Memory.wf (size : Nat) (m : Memory) : Prop := Ram.wf size m

/-- The canonical form of the palette RAM (R41). -/
abbrev Palette.wf (m : Palette) : Prop := Ram.wf 256 m

/-- Write bytes at rising addresses from `addr` on. -/
def Memory.setBytes : Memory → Nat → List Byte → Memory
  | m, _, [] => m
  | m, addr, b :: bs => Memory.setBytes (Ram.set m addr b) (addr + 1) bs

end Sys2Proof.Machine
end

