-- ==== Sys2Proof/Machine/Ops.lean ====
section
/-! DEFINITION. The named operations over registers, RAMs and ports that the meanings share, among them raising an error,
clearing it and the effects of reset. -/

namespace Sys2Proof.Machine

/-- `respond(0, data)`: the command ends with success (R8, R45). -/
def succeed (data : Word) (s : State) : State := { s with rsp := some { status := 0, data := data } }

/-- `raise E`: the command ends with the error's code, and ERR keeps the first error (R201, R202). -/
def raiseError (e : ErrorKind) (data : Word) (s : State) : State :=
  { s with err := stickyErr s.err e, rsp := some { status := e.code, data := data } }

/-- ERR_CLEAR's effect on ERR, the block's only return from an error (R109, R204). -/
def clearError (s : State) : State := { s with err := 0 }

/-- `closeState()` (R40, R107). -/
def closeState (s : State) : State := { s with isOpen := false, derived := .closed }

/-- `CFG[sel]`, zero-extended to 32 bits (R23, R25, R33, R102). -/
def readReg (s : State) : Reg → Word
  | .BPP => s.header.bpp.setWidth 32
  | .COMPRESSION => s.header.compression
  | .WIDTH => s.header.width
  | .HEIGHT => s.header.height
  | .COLORS_USED => s.header.colorsUsed
  | .MASK_R => s.header.mask.r
  | .MASK_G => s.header.mask.g
  | .MASK_B => s.header.mask.b
  | .MASK_A => s.header.mask.a
  | .PIXEL_OFFSET => s.header.pixelOffset
  | .BGCOLOR => s.draw.bgcolor.setWidth 32
  | .ORIGIN_X => s.draw.originX
  | .ORIGIN_Y => s.draw.originY
  | .STATUS => statusWord s
  | .IMG_W => s.derived.imgW
  | .IMG_H => s.derived.imgH
  | .STRIDE => s.derived.stride
  | .PAL_SIZE => s.derived.palSize
  | .SHIFT_R => s.derived.shift.r
  | .SHIFT_G => s.derived.shift.g
  | .SHIFT_B => s.derived.shift.b
  | .SHIFT_A => s.derived.shift.a
  | .EMASK_R => s.derived.emask.r
  | .EMASK_G => s.derived.emask.g
  | .EMASK_B => s.derived.emask.b
  | .EMASK_A => s.derived.emask.a

/-- `CFG[sel] <- v` for a writable register; a 16-bit register keeps `v[15:0]` (R25, R33, R101). A read-only register
keeps its value (R23). -/
def writeReg (r : Reg) (v : Word) (s : State) : State :=
  match r with
  | .BPP => { s with header := { s.header with bpp := v.setWidth 16 } }
  | .COMPRESSION => { s with header := { s.header with compression := v } }
  | .WIDTH => { s with header := { s.header with width := v } }
  | .HEIGHT => { s with header := { s.header with height := v } }
  | .COLORS_USED => { s with header := { s.header with colorsUsed := v } }
  | .MASK_R => { s with header := { s.header with mask := { s.header.mask with r := v } } }
  | .MASK_G => { s with header := { s.header with mask := { s.header.mask with g := v } } }
  | .MASK_B => { s with header := { s.header with mask := { s.header.mask with b := v } } }
  | .MASK_A => { s with header := { s.header with mask := { s.header.mask with a := v } } }
  | .PIXEL_OFFSET => { s with header := { s.header with pixelOffset := v } }
  | .BGCOLOR => { s with draw := { s.draw with bgcolor := v.setWidth 16 } }
  | .ORIGIN_X => { s with draw := { s.draw with originX := v } }
  | .ORIGIN_Y => { s with draw := { s.draw with originY := v } }
  | .STATUS | .IMG_W | .IMG_H | .STRIDE | .PAL_SIZE | .SHIFT_R | .SHIFT_G | .SHIFT_B | .SHIFT_A
  | .EMASK_R | .EMASK_G | .EMASK_B | .EMASK_A => s

/-- `PAL[i]`; a word nothing has written since reset reads as its free value (R41, U1). -/
def palWord (s : State) (i : Byte) : Word := (Ram.get s.pal i.toNat).getD (Config.unwrittenWord s.epoch i.toNat)

/-- `PAL[i] <- v` (R103). -/
def setPalWord (i : Byte) (v : Word) (s : State) : State := { s with pal := Ram.set s.pal i.toNat v }

/-- `RB[a]`; a byte nothing has written since reset reads as its free value (R43, U2). -/
def byteAt (s : State) (a : Nat) : Byte := (Ram.get s.rb a).getD (Config.unwrittenByte s.epoch a)

/-- `MemRead(a, n)` (R8). -/
def memRead (s : State) (a n : Nat) : Nat := leValue ((List.range n).map fun k => byteAt s (a + k))

/-- `MemWrite(a, 4, v)` (R8). -/
def memWriteWord (a : Nat) (v : Word) (s : State) : State := { s with rb := s.rb.setBytes a (wordBytes v) }

/-- The check of ROWBUF_WRITE and ROWBUF_READ (R63, R65, R134). -/
def wordAddrOk (s : State) (addr : BitVec 16) : Bool :=
  addr.toNat % 4 = 0 ∧ addr.toNat + 4 ≤ s.params.rowbufBytes

/-- The sink's readiness after it accepts the record offered; none if it does not accept (R46). -/
def SinkReady.accept : SinkReady → Option SinkReady
  | .always => some .always
  | .records 0 => none
  | .records (n + 1) => some (.records n)

/-- The sink accepts a record: it is delivered, in order (R46). -/
def deliver (r : PixelRecord) (ready : SinkReady) (s : State) : State :=
  { s with records := s.records ++ [r], sink := ready }

/-- The row waits at its column with that column's record offered (R46, R48, R236). -/
def holdRow (j : RowJob) (s : State) : State := { s with job := some j }

/-- No row waits and no record is offered: the row that waited goes on from here. -/
def releaseRow (s : State) : State := { s with job := none }

/-- The pixel output port: the record offered, none while `pix_valid` is 0 (R46). -/
def pixPort (s : State) : Option PixelRecord := s.job.map RowJob.offered

/-- The output `cmd_ready`: 0 from a command's acceptance until its response is taken (R44). -/
def cmdReady (s : State) : Bool := s.job.isNone && s.rsp.isNone

/-- The host takes the response offered (R45). -/
def takeResponse (r : Response) (s : State) : State := { s with rsp := none, responses := s.responses ++ [r] }

/-- A command is accepted: the host's next one comes to the port (R44). -/
def acceptCommand (rest : List Command) (s : State) : State := { s with cmds := rest }

/-- An illegal CMD word: IllegalCommand, with `rsp_data = 0` and no other change (R84). -/
def illegalCommand (s : State) : State := raiseError .illegalCommand 0 s

/-- Asserting the reset input (R230): every register to its reset value, both RAMs unwritten, a command in progress
abandoned with no response and its record withdrawn. What the host and the sink hold stays theirs; the input is released
with this step (log entry 6). -/
def assertReset (s : State) : State :=
  { s with
    header := .reset
    draw := .reset
    isOpen := false
    err := 0
    derived := .closed
    pal := []
    rb := []
    epoch := s.epoch + 1
    rsp := none
    job := none
    rst := false }

/-- The state in which a command is the next one the block accepts: it is first on the command port, no command is in
progress, no response is offered and reset is released. -/
def placeCommand (c : Command) (s : State) : State :=
  { s with cmds := c :: s.cmds, rsp := none, job := none, rst := false }

end Sys2Proof.Machine
end

