-- ==== Sys2Proof/Machine/Pixels.lean ====
section
/-! DEFINITION. The six unpackers, the dispatch by bit depth and the row loop (42_pixel_decode.md R151 to R162), with the
palette lookup (43_color_datapath.md R182). -/

namespace Sys2Proof.Machine

/-- Why a column has no color. -/
inductive PixelStop where
  /-- The rule raises an error. -/
  | error (e : ErrorKind)
  /-- The column's bytes lie outside the row buffer; R66 says this cannot happen (log entry 10). -/
  | noByte
  deriving DecidableEq, Repr

/-- `palLookup(i)` (R182). -/
def lookupPalette (s : State) (i : Byte) : Except ErrorKind Color :=
  if s.derived.palSize.toNat ≤ i.toNat then .error .outOfRangeIndex
  else .ok (paletteColor s.params.paletteLayout (palWord s i))

/-- `index1(c)` (R152): the most significant bit is the leftmost pixel. -/
def index1 (s : State) (c : Nat) : Byte := (byteAt s (c / 8) >>> (7 - c % 8)) &&& 1

/-- `index4(c)` (R153): the high nibble is the even column. -/
def index4 (s : State) (c : Nat) : Byte :=
  if c % 2 = 0 then ((byteAt s (c / 2)).extractLsb' 4 4).setWidth 8
  else ((byteAt s (c / 2)).extractLsb' 0 4).setWidth 8

/-- `index8(c)` (R154). -/
def index8 (s : State) (c : Nat) : Byte := byteAt s c

/-- `pix16(c)` (R155): the little-endian value, unchanged. -/
def pix16 (s : State) (c : Nat) : Color := BitVec.ofNat 16 (memRead s (2 * c) 2)

/-- `pix24(c)` (R156): bytes B, G, R. -/
def pix24 (s : State) (c : Nat) : Color :=
  quantize (byteAt s (3 * c + 2)) (byteAt s (3 * c + 1)) (byteAt s (3 * c))

/-- `pix32(c)` (R157): extract, quantize, blend against BGCOLOR. -/
def pix32 (s : State) (c : Nat) : Color :=
  let v : Word := BitVec.ofNat 32 (memRead s (4 * c) 4)
  let m := s.derived.emask
  let k := s.derived.shift
  blend s.params s.draw.bgcolor
    (quantize (extractChannel v m.r k.r) (extractChannel v m.g k.g) (extractChannel v m.b k.b))
    (extractChannel v m.a k.a)

/-- Go on only if bytes `[off, off + len)` are row-buffer bytes (R43, R66). -/
def ifInBuffer (s : State) (off len : Nat) (color : Except ErrorKind Color) : Except PixelStop Color :=
  if off + len ≤ s.params.rowbufBytes then
    match color with
    | .ok v => .ok v
    | .error e => .error (.error e)
  else .error .noByte

/-- `pixelColor(c)` (R151), each depth with the bytes it reads (R64). -/
def pixelColor (s : State) (c : Nat) : Except PixelStop Color :=
  match s.header.bpp.toNat with
  | 1 => ifInBuffer s (c / 8) 1 (lookupPalette s (index1 s c))
  | 4 => ifInBuffer s (c / 2) 1 (lookupPalette s (index4 s c))
  | 8 => ifInBuffer s c 1 (lookupPalette s (index8 s c))
  | 16 => ifInBuffer s (2 * c) 2 (.ok (pix16 s c))
  | 24 => ifInBuffer s (3 * c) 3 (.ok (pix24 s c))
  | 32 => ifInBuffer s (4 * c) 4 (.ok (pix32 s c))
  | _ => .error (.error .unsupportedFormat)

/-- The record of column `c` of logical row `row`: 32-bit sums that wrap, no clipping (R160, R34). -/
def recordAt (s : State) (row : Word) (c : Nat) (color : Color) : PixelRecord :=
  { x := s.draw.originX + BitVec.ofNat 32 c, y := s.draw.originY + row, color := color }

/-- `rsp_data` of a DECODE_ROW that fails at column `c`: the number of records emitted for OutOfRangeIndex, otherwise 0
(R162, R200). -/
def rowErrorData (e : ErrorKind) (c : Nat) : Word :=
  if e = .outOfRangeIndex then BitVec.ofNat 32 c else 0

/-- The loop of R162 from column `c` on, with `n` columns left. A record the sink does not accept stays offered and the row
waits (R46, R236). -/
def runRow (row : Word) : Nat → Nat → State → Result
  | 0, _, s => .next (succeed s.derived.imgW s)
  | n + 1, c, s =>
    match pixelColor s c with
    | .error .noByte => .fault .rowBufferOverrun
    | .error (.error e) => .next (raiseError e (rowErrorData e c) s)
    | .ok color =>
      match s.sink.accept with
      | none => .next (holdRow { row := row, col := c, offered := recordAt s row c color } s)
      | some ready => runRow row n (c + 1) (deliver (recordAt s row c color) ready s)

/-- One step of a row that waits: if the sink accepts the record offered, the row goes on with the next column; else nothing
changes, a hang until the sink or reset ends it (R236). -/
def resumeRow (j : RowJob) (s : State) : Result :=
  match s.sink.accept with
  | none => .next s
  | some ready =>
    runRow j.row (s.derived.imgW.toNat - (j.col + 1)) (j.col + 1) (deliver j.offered ready (releaseRow s))

end Sys2Proof.Machine
end

