-- ==== Sys2Proof/Machine/ColorDatapath.lean ====
section
/-! DEFINITION. The commands of 43_color_datapath.md (R183 to R185). -/

namespace Sys2Proof.Machine

/-- QUANT (R183). -/
def execQuant (r g b : Byte) (s : State) : Result := .next (succeed ((quantize r g b).setWidth 32) s)

/-- MIX (R184): the operand order is as given. -/
def execMix (colorA colorB : Color) (w : Byte) (s : State) : Result :=
  .next (succeed ((mixColor s.params.mixRounding colorA colorB w).setWidth 32) s)

/-- PAL_LOOKUP (R185). -/
def execPalLookup (idx : Byte) (s : State) : Result :=
  match lookupPalette s idx with
  | .error e => .next (raiseError e 0 s)
  | .ok color => .next (succeed (color.setWidth 32) s)

end Sys2Proof.Machine
end

