-- ==== Sys2Proof/WellFormed.lean ====
section
/-! DEFINITION. What is well formed. An `Instr` needs no check: each operand's type has exactly the width of its field
(30_encoding.md R81, R82), so a term outside the encoding cannot be built. The operand ranges an assembler checks (R87)
stand with the assembler in Machine/Assembler.lean, the legality of a raw CMD word (R84) in Decode.lean. What remains to
check is a choice of the parameters. -/

namespace Sys2Proof

/-- The values of ROWBUF_BYTES that R5 admits: "a multiple of 4 with 4 <= ROWBUF_BYTES <= 65536". -/
abbrev Params.WellFormed (p : Params) : Prop :=
  p.rowbufBytes % 4 = 0 ∧ 4 ≤ p.rowbufBytes ∧ p.rowbufBytes ≤ 65536

end Sys2Proof
end

