-- ==== Sys2Proof/Machine/Geometry.lean ====
section
/-! DEFINITION. What OPEN derives (40_configuration.md R106): the row stride (41_scanline.md R130), the palette size (R36),
the channel masks and shifts (R38, R39, R150). -/

namespace Sys2Proof.Machine

/-- `stride(bpp, w)` on exact integers (R130, C1). -/
def stride (bpp w : Nat) : Nat := ((bpp * w + 7) / 8 + 3) / 4 * 4

/-- R150's loop: shift right until bit 0 is set, counting, at most `fuel` times. -/
def trailingZeros : Nat → Word → Nat
  | 0, _ => 0
  | fuel + 1, m => if m.getLsbD 0 then 0 else trailingZeros fuel (m >>> 1) + 1

/-- `maskShift(m)` (R150): the position of the lowest set bit, InvalidFormat for 0. -/
def shiftOfMask (m : Word) : Except ErrorKind Word :=
  if m = 0 then .error .invalidFormat else .ok (BitVec.ofNat 32 (trailingZeros 32 m))

/-- The supported bit depths (R6). -/
def supportedDepth (bpp : Nat) : Bool := [1, 4, 8, 16, 24, 32].contains bpp

/-- The palette size of a header with `bpp < 16` (R36, R106). -/
def paletteSize (h : HeaderRegs) : Nat := if h.colorsUsed = 0 then 2 ^ h.bpp.toNat else h.colorsUsed.toNat

/-- The default masks (R39). -/
def defaultMasks : Channels := { r := 0x00FF0000, g := 0x0000FF00, b := 0x000000FF, a := 0xFF000000 }

/-- The default shifts (R38). -/
def defaultShifts : Channels := { r := 16, g := 8, b := 0, a := 24 }

/-- The shifts of four written masks, tried as R, G, B, A (R106 check 6). -/
def shiftsOfMasks (m : Channels) : Except ErrorKind Channels :=
  match shiftOfMask m.r, shiftOfMask m.g, shiftOfMask m.b, shiftOfMask m.a with
  | .ok r, .ok g, .ok b, .ok a => .ok { r := r, g := g, b := b, a := a }
  | .error e, _, _, _ => .error e
  | _, .error e, _, _ => .error e
  | _, _, .error e, _ => .error e
  | _, _, _, .error e => .error e

/-- The effective shifts and masks (R106): the written masks only at 32 bpp with bit-mask compression (R38, R39). -/
def effectiveMasks (h : HeaderRegs) : Except ErrorKind (Channels × Channels) :=
  if h.bpp = 32 ∧ h.compression = 3 then
    match shiftsOfMasks h.mask with
    | .ok shifts => .ok (shifts, h.mask)
    | .error e => .error e
  else .ok (defaultShifts, defaultMasks)

/-- `openBlock()` of R106 without its first and last lines: checks 1 to 7 in order, then the derived registers. -/
def deriveRegs (p : Params) (h : HeaderRegs) : Except ErrorKind DerivedRegs :=
  if h.compression ≠ 0 ∧ h.compression ≠ 3 then .error .unsupportedFormat
  else if ¬supportedDepth h.bpp.toNat then .error .unsupportedFormat
  else if s32 h.height < 0 then .error .unsupportedFormat
  else if s32 h.width < 0 then .error .invalidFormat
  else if h.bpp.toNat < 16 ∧ 256 < paletteSize h then .error .invalidFormat
  else
    match effectiveMasks h with
    | .error e => .error e
    | .ok (shifts, masks) =>
      if p.rowbufBytes < stride h.bpp.toNat h.width.toNat then .error .capacity
      else
        .ok
          { imgW := h.width
            imgH := h.height
            stride := BitVec.ofNat 32 (stride h.bpp.toNat h.width.toNat)
            palSize := if h.bpp.toNat < 16 then BitVec.ofNat 32 (paletteSize h) else 0
            shift := shifts
            emask := masks }

/-- The stored row that holds logical row `row` of an image of height `imgH` (R132). -/
def fileRow (imgH row : Nat) : Nat := imgH - row - 1

/-- The file offset of a logical row, modulo 2^32 (R133, D19). -/
def rowOffset (pixelOffset imgH rowStride row : Word) : Word :=
  BitVec.ofNat 32 (pixelOffset.toNat + fileRow imgH.toNat row.toNat * rowStride.toNat)

end Sys2Proof.Machine
end

