-- ==== Sys2Proof/Machine/Configuration.lean ====
section
/-! DEFINITION. Configuration, palette and lifecycle commands (40_configuration.md R100 to R109). -/

namespace Sys2Proof.Machine

/-- NOP (R100). -/
def execNop (s : State) : Result := .next (succeed 0 s)

/-- CFG_WRITE (R101): a reserved or read-only selector is IllegalCommand; a header-group write closes an open block. -/
def execCfgWrite (sel : Byte) (value : Word) (s : State) : Result :=
  match Reg.ofSel sel with
  | none => .next (raiseError .illegalCommand 0 s)
  | some r =>
    match r.group with
    | .derived => .next (raiseError .illegalCommand 0 s)
    | .draw => .next (succeed 0 (writeReg r value s))
    | .header =>
      if s.isOpen then .next (succeed 0 (closeState (writeReg r value s)))
      else .next (succeed 0 (writeReg r value s))

/-- CFG_READ (R102). -/
def execCfgRead (sel : Byte) (s : State) : Result :=
  match Reg.ofSel sel with
  | none => .next (raiseError .illegalCommand 0 s)
  | some r => .next (succeed (readReg s r) s)

/-- PAL_WRITE (R103). -/
def execPalWrite (idx : Byte) (word : Word) (s : State) : Result := .next (succeed 0 (setPalWord idx word s))

/-- PAL_READ (R104): no check against PAL_SIZE. -/
def execPalRead (idx : Byte) (s : State) : Result := .next (succeed (palWord s idx) s)

/-- OPEN (R105, R106): close first, then validate; a failure leaves the closed state. -/
def execOpenBlock (s : State) : Result :=
  match deriveRegs s.params s.header with
  | .error e => .next (raiseError e 0 (closeState s))
  | .ok d => .next (succeed 0 { closeState s with isOpen := true, derived := d })

/-- CLOSE (R108). -/
def execCloseBlock (s : State) : Result := .next (succeed 0 (closeState s))

/-- ERR_CLEAR (R109). -/
def execErrClear (s : State) : Result := .next (succeed 0 (clearError s))

end Sys2Proof.Machine
end

