-- ==== Sys2Proof/Machine/PixelDecode.lean ====
section
/-! DEFINITION. The commands of 42_pixel_decode.md (R161 to R163). -/

namespace Sys2Proof.Machine

/-- DECODE_PIXEL (R161): one column's color, nothing emitted. -/
def execDecodePixel (col : Word) (s : State) : Result :=
  if s.derived.imgW.toNat ≤ col.toNat then .next (raiseError .range 0 s)
  else
    match pixelColor s col.toNat with
    | .error .noByte => .fault .rowBufferOverrun
    | .error (.error e) => .next (raiseError e 0 s)
    | .ok color => .next (succeed (color.setWidth 32) s)

/-- DECODE_ROW (R162): no-op while closed, Range, then the columns in order. -/
def execDecodeRow (row : Word) (s : State) : Result :=
  if s.isOpen = false then .next (succeed 0 s)
  else if s.derived.imgH.toNat ≤ row.toNat then .next (raiseError .range 0 s)
  else runRow row s.derived.imgW.toNat 0 s

/-- MASKSHIFT (R163): writes no SHIFT or EMASK register. -/
def execMaskShift (mask : Word) (s : State) : Result :=
  match shiftOfMask mask with
  | .error e => .next (raiseError e 0 s)
  | .ok n => .next (succeed n s)

end Sys2Proof.Machine
end

