-- ==== Sys2Proof/Machine/Scanline.lean ====
section
/-! DEFINITION. Scanline geometry and row buffer commands (41_scanline.md R133 to R135). -/

namespace Sys2Proof.Machine

/-- ROWADDR (R133). -/
def execRowAddr (row : Word) (s : State) : Result :=
  if s.derived.imgH.toNat ≤ row.toNat then .next (raiseError .range 0 s)
  else .next (succeed (rowOffset s.header.pixelOffset s.derived.imgH s.derived.stride row) s)

/-- ROWBUF_WRITE (R134). -/
def execRowbufWrite (addr : BitVec 16) (word : Word) (s : State) : Result :=
  if wordAddrOk s addr then .next (succeed 0 (memWriteWord addr.toNat word s))
  else .next (raiseError .badAddress 0 s)

/-- ROWBUF_READ (R135). -/
def execRowbufRead (addr : BitVec 16) (s : State) : Result :=
  if wordAddrOk s addr then .next (succeed (BitVec.ofNat 32 (memRead s addr.toNat 4)) s)
  else .next (raiseError .badAddress 0 s)

end Sys2Proof.Machine
end

