-- ==== Sys2Proof/Machine/Dispatch.lean ====
section
/-! DEFINITION. One arm per command. -/

namespace Sys2Proof.Machine

def exec (i : Instr) (s : State) : Host.Outcome State Fault Refusal :=
  match i with
  -- 40_configuration.md
  | .nop => Sys2Proof.Machine.execNop s
  | .cfgWrite sel value => Sys2Proof.Machine.execCfgWrite sel value s
  | .cfgRead sel => Sys2Proof.Machine.execCfgRead sel s
  | .palWrite idx word => Sys2Proof.Machine.execPalWrite idx word s
  | .palRead idx => Sys2Proof.Machine.execPalRead idx s
  -- 41_scanline.md
  | .rowbufWrite addr word => Sys2Proof.Machine.execRowbufWrite addr word s
  | .rowbufRead addr => Sys2Proof.Machine.execRowbufRead addr s
  -- 40_configuration.md
  | .openBlock => Sys2Proof.Machine.execOpenBlock s
  | .closeBlock => Sys2Proof.Machine.execCloseBlock s
  | .errClear => Sys2Proof.Machine.execErrClear s
  -- 42_pixel_decode.md
  | .decodeRow row => Sys2Proof.Machine.execDecodeRow row s
  | .decodePixel col => Sys2Proof.Machine.execDecodePixel col s
  -- 41_scanline.md
  | .rowAddr row => Sys2Proof.Machine.execRowAddr row s
  -- 43_color_datapath.md
  | .quant r g b => Sys2Proof.Machine.execQuant r g b s
  | .mix colorA colorB w => Sys2Proof.Machine.execMix colorA colorB w s
  | .palLookup idx => Sys2Proof.Machine.execPalLookup idx s
  -- 42_pixel_decode.md
  | .maskShift mask => Sys2Proof.Machine.execMaskShift mask s

end Sys2Proof.Machine
end

