-- ==== Sys2Proof/Machine/Step.lean ====
section
/-! DEFINITION. One step of the machine: one thing the block does at its ports. -/

namespace Sys2Proof.Machine

/-- Reset first (R230); then a response the host has not taken (R44, R45); then a row that waits on the sink (R46, R48);
then the command on the command port, an illegal one included (R84, R85); else the block is idle (R212). -/
def step (s : State) : Host.Outcome State Fault Refusal :=
  if s.rst then .next (assertReset s)
  else
    match s.rsp with
    | some r => if s.rspReady then .next (takeResponse r s) else .next s
    | none =>
      match s.job with
      | some j => resumeRow j s
      | none =>
        match s.cmds with
        | [] => .next s
        | c :: rest =>
          match decode c.word c.data with
          | .ok i => exec i (acceptCommand rest s)
          | .error _ => .next (illegalCommand (acceptCommand rest s))

/-- `s` with the command whose bits are `w` placed where the block takes its next command from. -/
def State.withFetchWord (s : State) (nbits w : Nat) : State := placeCommand (tableCommand nbits w) s

end Sys2Proof.Machine
end

