-- ==== Sys2Proof/Machine/Assembler.lean ====
section
/-! DEFINITION. The assembler of 30_encoding.md R87 and the pseudo-instructions of R88, from a parsed line to commands. The
text itself (decimal or hex numbers, commas) is left to a parser; a selector is a number or a register name. -/

namespace Sys2Proof.Machine

/-- A selector operand: a number, or a register name of R23 (R87). -/
inductive SelArg where
  | num (n : Nat)
  | reg (r : Reg)
  deriving DecidableEq, Repr

/-- One source line: the 17 mnemonics of R87 and the four pseudo-instructions of R88. -/
inductive AsmLine where
  | nop
  | cfgWrite (sel : SelArg) (value : Nat)
  | cfgRead (sel : SelArg)
  | palWrite (idx word : Nat)
  | palRead (idx : Nat)
  | rowbufWrite (addr word : Nat)
  | rowbufRead (addr : Nat)
  | openBlock
  | closeBlock
  | errClear
  | decodeRow (row : Nat)
  | decodePixel (col : Nat)
  | rowAddr (row : Nat)
  | quant (r g b : Nat)
  | mix (colorA colorB w : Nat)
  | palLookup (idx : Nat)
  | maskShift (mask : Nat)
  /-- `ROWBUF_LOAD addr, b0, b1, ...` -/
  | rowbufLoad (addr : Nat) (bytes : List Byte)
  /-- `PAL_LOAD idx, w0, w1, ...` -/
  | palLoad (idx : Nat) (words : List Nat)
  /-- `PAL_RGB idx, r, g, b` -/
  | palRgb (idx r g b : Nat)
  /-- `SET_ORIGIN x, y` -/
  | setOrigin (x y : Int)
  deriving DecidableEq, Repr

/-- Why an assembler rejects a line (R87). -/
inductive AsmError where
  /-- A SEL, IDX or W outside [0, 255]. -/
  | fieldRange (n : Nat)
  /-- An ADDR outside [0, 65535]. -/
  | addrRange (n : Nat)
  /-- An r, g or b outside [0, 255]. -/
  | channelRange (n : Nat)
  /-- A color outside [0, 0xFFFF]. -/
  | colorRange (n : Nat)
  /-- A value outside [0, 2^32). -/
  | valueRange (n : Nat)
  deriving DecidableEq, Repr

/-- A number that fits `bits` bits, else the error. -/
def asmField (bits : Nat) (e : Nat → AsmError) (n : Nat) : Except AsmError (BitVec bits) :=
  if n < 2 ^ bits then .ok (BitVec.ofNat bits n) else .error (e n)

/-- SEL, by number or by name. -/
def asmSel : SelArg → Except AsmError Byte
  | .num n => asmField 8 .fieldRange n
  | .reg r => .ok r.sel

/-- One of the 17 commands (R87). -/
def asmOne (i : Instr) : List Command := [encode i]

/-- `PAL_WRITE idx+k, wk` for each word (R88). With no word, which R88 does not mention, no command: DESIGN CHOICE, safe
(log entry 16). -/
def asmPalWords : Nat → List Nat → Except AsmError (List Command)
  | _, [] => .ok []
  | idx, w :: ws => do
    let i ← asmField 8 .fieldRange idx
    let v ← asmField 32 .valueRange w
    let rest ← asmPalWords (idx + 1) ws
    return encode (.palWrite i v) :: rest

/-- `ROWBUF_WRITE addr+4j, w_j` for each word (R88). With no word, which R88 does not mention, no command: DESIGN CHOICE,
safe (log entry 16). -/
def asmRowWords : Nat → List Word → Except AsmError (List Command)
  | _, [] => .ok []
  | addr, v :: vs => do
    let a ← asmField 16 .addrRange addr
    let rest ← asmRowWords (addr + 4) vs
    return encode (.rowbufWrite a v) :: rest

/-- The word of four bytes, lowest first (R88). -/
def wordOfBytes (b0 b1 b2 b3 : Byte) : Word :=
  b0.setWidth 32 ||| (b1.setWidth 32 <<< 8) ||| (b2.setWidth 32 <<< 16) ||| (b3.setWidth 32 <<< 24)

/-- Bytes grouped by four, lowest first; a byte past the last counts as 0 (R88). -/
def packWords : List Byte → List Word
  | [] => []
  | [b0] => [wordOfBytes b0 0 0 0]
  | [b0, b1] => [wordOfBytes b0 b1 0 0]
  | [b0, b1, b2] => [wordOfBytes b0 b1 b2 0]
  | b0 :: b1 :: b2 :: b3 :: rest => wordOfBytes b0 b1 b2 b3 :: packWords rest

/-- The palette word of a color, its alpha byte 0 (R88, R42). -/
def rgbWord (layout : PaletteLayout) (r g b : Byte) : Word :=
  match layout with
  | .docAbgr => (r.setWidth 32 <<< 24) ||| (g.setWidth 32 <<< 16) ||| (b.setWidth 32 <<< 8)
  | .bmpBgrx => (r.setWidth 32 <<< 16) ||| (g.setWidth 32 <<< 8) ||| b.setWidth 32

/-- The commands of one line (R87, R88). The ADDR and IDX a line names are checked even where it expands to no command
(log entry 16). -/
def assembleLine (p : Params) : AsmLine → Except AsmError (List Command)
  | .nop => .ok (asmOne .nop)
  | .cfgWrite sel value => do
    return asmOne (.cfgWrite (← asmSel sel) (← asmField 32 .valueRange value))
  | .cfgRead sel => do return asmOne (.cfgRead (← asmSel sel))
  | .palWrite idx word => do
    return asmOne (.palWrite (← asmField 8 .fieldRange idx) (← asmField 32 .valueRange word))
  | .palRead idx => do return asmOne (.palRead (← asmField 8 .fieldRange idx))
  | .rowbufWrite addr word => do
    return asmOne (.rowbufWrite (← asmField 16 .addrRange addr) (← asmField 32 .valueRange word))
  | .rowbufRead addr => do return asmOne (.rowbufRead (← asmField 16 .addrRange addr))
  | .openBlock => .ok (asmOne .openBlock)
  | .closeBlock => .ok (asmOne .closeBlock)
  | .errClear => .ok (asmOne .errClear)
  | .decodeRow row => do return asmOne (.decodeRow (← asmField 32 .valueRange row))
  | .decodePixel col => do return asmOne (.decodePixel (← asmField 32 .valueRange col))
  | .rowAddr row => do return asmOne (.rowAddr (← asmField 32 .valueRange row))
  | .quant r g b => do
    return asmOne
      (.quant (← asmField 8 .channelRange r) (← asmField 8 .channelRange g) (← asmField 8 .channelRange b))
  | .mix colorA colorB w => do
    return asmOne
      (.mix (← asmField 16 .colorRange colorA) (← asmField 16 .colorRange colorB) (← asmField 8 .fieldRange w))
  | .palLookup idx => do return asmOne (.palLookup (← asmField 8 .fieldRange idx))
  | .maskShift mask => do return asmOne (.maskShift (← asmField 32 .valueRange mask))
  | .rowbufLoad addr bytes => do
    let _ ← asmField 16 .addrRange addr
    asmRowWords addr (packWords bytes)
  | .palLoad idx words => do
    let _ ← asmField 8 .fieldRange idx
    asmPalWords idx words
  | .palRgb idx r g b => do
    let i ← asmField 8 .fieldRange idx
    let rr ← asmField 8 .channelRange r
    let gg ← asmField 8 .channelRange g
    let bb ← asmField 8 .channelRange b
    return asmOne (.palWrite i (rgbWord p.paletteLayout rr gg bb))
  | .setOrigin x y =>
    .ok (asmOne (.cfgWrite Reg.ORIGIN_X.sel (u32 x)) ++ asmOne (.cfgWrite Reg.ORIGIN_Y.sel (u32 y)))

/-- The commands of a program, line by line (R87). -/
def assembleProgram (p : Params) : List AsmLine → Except AsmError (List Command)
  | [] => .ok []
  | l :: ls => do
    let cmds ← assembleLine p l
    let rest ← assembleProgram p ls
    return cmds ++ rest

end Sys2Proof.Machine
end

