-- ==== Sys2Proof/Safety.lean ====
section
/-! DEFINITION. What counts as a good state and a safe run, in the terms the statements use: the invariant of every
reachable state, the host's and the sink's duties (70_reset_and_hazards.md R233, R236), and what a run shows (R239). -/

namespace Sys2Proof.Machine

/-- The next state of a result, if it is one. -/
def Result.next? : Host.Outcome State Fault Refusal → Option State
  | .next t => some t
  | .fault _ => none
  | .refused _ => none

/-- The response a result leaves on the response port. -/
def Result.response? (o : Host.Outcome State Fault Refusal) : Option Response := (Result.next? o).bind State.rsp

/-- ERR holds no error or one the block raises: 1, 3, 4, 5, 6, 7 or 8; code 2 is the host's and 9 to 15 are never produced
(R200). -/
abbrev legalErr (e : BitVec 4) : Prop := e ≠ 2 ∧ e.toNat ≤ 8

/-- OPEN and the derived registers agree with the header group: open exactly as the last successful OPEN derived them
(R24, R35 to R39), closed with all of them 0 (R40). -/
abbrev State.lifecycleOk (s : State) : Prop :=
  (s.isOpen = true → deriveRegs s.params s.header = .ok s.derived) ∧ (s.isOpen = false → s.derived = .closed)

/-- Both RAMs are in canonical form and inside their bounds (R41, R43). -/
abbrev State.ramsOk (s : State) : Prop := Memory.wf s.params.rowbufBytes s.rb ∧ Palette.wf s.pal

/-- A waiting row belongs to an open block, lies in the image, offers the record of its own column (R46, R48, R162), and has
not answered yet (R45). -/
abbrev RowJob.Ok (s : State) (j : RowJob) : Prop :=
  s.isOpen = true ∧ j.row.toNat < s.derived.imgH.toNat ∧ j.col < s.derived.imgW.toNat ∧ s.rsp = none ∧
    ∃ color, pixelColor s j.col = .ok color ∧ j.offered = recordAt s j.row j.col color

/-- The invariant of every reachable state. -/
structure State.Inv (s : State) : Prop where
  params : s.params.WellFormed
  rams : s.ramsOk
  err : legalErr s.err
  rsp : ∀ r, s.rsp = some r → legalErr r.status
  lifecycle : s.lifecycleOk
  job : ∀ j, s.job = some j → RowJob.Ok s j

/-- The row-buffer bytes the current image's row uses: `ceil(BPP * IMG_W / 8)` (R66). -/
def usedRowBytes (s : State) : Nat := (s.header.bpp.toNat * s.derived.imgW.toNat + 7) / 8

/-- The host has written every palette entry below PAL_SIZE since reset (R233). -/
abbrev paletteLoaded (s : State) : Prop := ∀ i : Nat, i < s.derived.palSize.toNat → (Ram.get s.pal i).isSome

/-- The host has written every row-buffer byte the row uses since reset (R233). -/
abbrev rowLoaded (s : State) : Prop := ∀ a : Nat, a < usedRowBytes s → (Ram.get s.rb a).isSome

/-- The sink takes the next `n` records offered (R236). -/
def SinkReady.takes : SinkReady → Nat → Bool
  | .always, _ => true
  | .records m, n => n ≤ m

/-- What the sink will take after `n` more records. -/
def SinkReady.after : SinkReady → Nat → SinkReady
  | .always, _ => .always
  | .records m, n => .records (m - n)

/-- No command in progress, no response offered, reset released: the block takes the next command (R44). -/
abbrev State.idle (s : State) : Prop := s.rst = false ∧ cmdReady s = true

/-- A run is over when no command is waiting or in progress and the host has taken the last response (R239). -/
abbrev runOver (s : State) : Prop := s.cmds = [] ∧ State.idle s

end Sys2Proof.Machine
end

