-- ==== Sys2Proof/SpecTables.lean ====
section
/-! DEFINITION. Tables and formulas of the spec written a second time, straight from its text and by number, for the
statements to hold the model against. No meaning uses them. -/

namespace Sys2Proof.Spec

open Sys2Proof.Machine

/-- The opcode map of 30_encoding.md R83: mnemonic, match and mask, as printed there. -/
def opcodeMap : List (Opcode × Word × Word) :=
  [ (.nop, 0x00000000, 0xFFFFFFFF),
    (.cfgWrite, 0x01000000, 0xFFFFFF00),
    (.cfgRead, 0x02000000, 0xFFFFFF00),
    (.palWrite, 0x03000000, 0xFFFFFF00),
    (.palRead, 0x04000000, 0xFFFFFF00),
    (.rowbufWrite, 0x05000000, 0xFFFF0000),
    (.rowbufRead, 0x06000000, 0xFFFF0000),
    (.openBlock, 0x07000000, 0xFFFFFFFF),
    (.closeBlock, 0x08000000, 0xFFFFFFFF),
    (.errClear, 0x09000000, 0xFFFFFFFF) ] ++
  [ (.decodeRow, 0x10000000, 0xFFFFFFFF),
    (.decodePixel, 0x11000000, 0xFFFFFFFF),
    (.rowAddr, 0x12000000, 0xFFFFFFFF),
    (.quant, 0x20000000, 0xFFFFFFFF),
    (.mix, 0x21000000, 0xFFFFFF00),
    (.palLookup, 0x22000000, 0xFFFFFF00),
    (.maskShift, 0x23000000, 0xFFFFFFFF) ]

/-- What CFG_READ of selector `sel` answers by 10_state.md R23 and 40_configuration.md R102; none for [0x0D, 0x0F] and from
0x1D up. -/
def registerRead (s : State) (sel : Nat) : Option Word :=
  if sel = 0x00 then some (BitVec.ofNat 32 s.header.bpp.toNat)
  else if sel = 0x01 then some s.header.compression
  else if sel = 0x02 then some s.header.width
  else if sel = 0x03 then some s.header.height
  else if sel = 0x04 then some s.header.colorsUsed
  else if sel = 0x05 then some s.header.mask.r
  else if sel = 0x06 then some s.header.mask.g
  else if sel = 0x07 then some s.header.mask.b
  else if sel = 0x08 then some s.header.mask.a
  else if sel = 0x09 then some s.header.pixelOffset
  else if sel = 0x0A then some (BitVec.ofNat 32 s.draw.bgcolor.toNat)
  else if sel = 0x0B then some s.draw.originX
  else if sel = 0x0C then some s.draw.originY
  else if sel = 0x10 then some (BitVec.ofNat 32 (256 * s.err.toNat + s.isOpen.toNat))
  else if sel = 0x11 then some s.derived.imgW
  else if sel = 0x12 then some s.derived.imgH
  else if sel = 0x13 then some s.derived.stride
  else if sel = 0x14 then some s.derived.palSize
  else if sel = 0x15 then some s.derived.shift.r
  else if sel = 0x16 then some s.derived.shift.g
  else if sel = 0x17 then some s.derived.shift.b
  else if sel = 0x18 then some s.derived.shift.a
  else if sel = 0x19 then some s.derived.emask.r
  else if sel = 0x1A then some s.derived.emask.g
  else if sel = 0x1B then some s.derived.emask.b
  else if sel = 0x1C then some s.derived.emask.a
  else none

/-- The header group after a write of `v` to selector `sel` (R101): the register named changes, the others do not. -/
def headerAfter (h : HeaderRegs) (sel : Nat) (v : Word) : HeaderRegs :=
  { bpp := if sel = 0x00 then BitVec.ofNat 16 v.toNat else h.bpp
    compression := if sel = 0x01 then v else h.compression
    width := if sel = 0x02 then v else h.width
    height := if sel = 0x03 then v else h.height
    colorsUsed := if sel = 0x04 then v else h.colorsUsed
    mask :=
      { r := if sel = 0x05 then v else h.mask.r
        g := if sel = 0x06 then v else h.mask.g
        b := if sel = 0x07 then v else h.mask.b
        a := if sel = 0x08 then v else h.mask.a }
    pixelOffset := if sel = 0x09 then v else h.pixelOffset }

/-- The draw group after a write of `v` to selector `sel` (R101). -/
def drawAfter (d : DrawRegs) (sel : Nat) (v : Word) : DrawRegs :=
  { bgcolor := if sel = 0x0A then BitVec.ofNat 16 v.toNat else d.bgcolor
    originX := if sel = 0x0B then v else d.originX
    originY := if sel = 0x0C then v else d.originY }

/-- The row stride: `ceil(bpp * w / 8)` rounded up to the next multiple of 4 (R130), as whole 32-bit words. -/
def strideBytes (bpp w : Nat) : Nat := 4 * ((bpp * w + 31) / 32)

/-- The code OPEN answers when a check fails, the first failing check of R106; none when all seven pass. A 32-bit value
is negative exactly from 2^31 up (R7). -/
def openError (p : Params) (h : HeaderRegs) : Option (BitVec 4) :=
  if ¬(h.compression.toNat = 0 ∨ h.compression.toNat = 3) then some 3
  else if h.bpp.toNat ∉ [1, 4, 8, 16, 24, 32] then some 3
  else if 2 ^ 31 ≤ h.height.toNat then some 3
  else if 2 ^ 31 ≤ h.width.toNat then some 1
  else if h.bpp.toNat < 16 ∧ 256 < h.colorsUsed.toNat then some 1
  else if h.bpp.toNat = 32 ∧ h.compression.toNat = 3 ∧
      (h.mask.r = 0 ∨ h.mask.g = 0 ∨ h.mask.b = 0 ∨ h.mask.a = 0) then some 1
  else if p.rowbufBytes < strideBytes h.bpp.toNat h.width.toNat then some 7
  else none

/-- `n` is the position of the lowest set bit of `m` (`ctz`, R7). -/
def IsLowestSetBit (m : Word) (n : Nat) : Prop := m.getLsbD n = true ∧ ∀ k, k < n → m.getLsbD k = false

/-- ERR after an error with code `code` (R202). -/
def errAfter (err code : BitVec 4) : BitVec 4 := if err = 0 then code else err

/-- An RGB565 color with the given channel numbers, as a sum (R9). -/
def color565 (r g b : Nat) : Nat := 2048 * r + 32 * g + b

/-- `quantize` as a sum of quotients (R180). -/
def quantized (r g b : Byte) : Nat := color565 (r.toNat / 8) (g.toNat / 4) (b.toNat / 8)

/-- One channel of the mix, by R181's formulas. -/
def mixed (rounding : MixRounding) (w ca cb : Nat) : Nat :=
  if rounding = .twoFloor then ca * (255 - w) / 255 + cb * w / 255 else (ca * (255 - w) + cb * w) / 255

/-- The mix of two colors, channel by channel, on the numbers R9's layout gives. -/
def mixedColor (rounding : MixRounding) (a b : Color) (w : Byte) : Nat :=
  color565 (mixed rounding w.toNat (a.toNat / 2048) (b.toNat / 2048))
    (mixed rounding w.toNat (a.toNat / 32 % 64) (b.toNat / 32 % 64))
    (mixed rounding w.toNat (a.toNat % 32) (b.toNat % 32))

/-- The color of a palette word by R42's two layouts, quantized. -/
def paletteQuantized (layout : PaletteLayout) (e : Word) : Nat :=
  if layout = .docAbgr then
    color565 (e.toNat / 2 ^ 24 / 8) (e.toNat / 2 ^ 16 % 256 / 4) (e.toNat / 2 ^ 8 % 256 / 8)
  else color565 (e.toNat / 2 ^ 16 % 256 / 8) (e.toNat / 2 ^ 8 % 256 / 4) (e.toNat % 256 / 8)

/-- The palette index of column `c` at 1, 4 or 8 bpp by R152 to R154, from the row-buffer bytes. -/
def paletteIndex (s : State) (bpp c : Nat) : Nat :=
  if bpp = 1 then (byteAt s (c / 8)).toNat / 2 ^ (7 - c % 8) % 2
  else if bpp = 4 then
    (if c % 2 = 0 then (byteAt s (c / 2)).toNat / 16 else (byteAt s (c / 2)).toNat % 16)
  else (byteAt s c).toNat

/-- The 32-bit pixel at byte `4c`, little-endian (R60, R157). -/
def pixel32 (s : State) (c : Nat) : Nat :=
  (byteAt s (4 * c)).toNat + 256 * (byteAt s (4 * c + 1)).toNat + 65536 * (byteAt s (4 * c + 2)).toNat
    + 16777216 * (byteAt s (4 * c + 3)).toNat

/-- `extract` as a number: `((v & m) >> s) mod 256` (R158). -/
def channel (v : Nat) (m sh : Word) : Byte := BitVec.ofNat 8 ((v &&& m.toNat) / 2 ^ sh.toNat % 256)

end Sys2Proof.Spec
end

