-- ==== Sys2Proof/Certificates/Slice0/Obligations.lean ====
section
/-! DEFINITION. The statements for the provers, from the spec's numbered rules. -/

open Sys2Proof Sys2Proof.Machine

/-! ## Encoding and decoding -/

/-- 30_encoding.md R82, R85, R87: decoding the command an assembler writes for an instruction gives that instruction, with
every operand at every value. -/
def Obligations.DecodeOfEncode : Prop :=
  ∀ i : Instr, decode (encode i).word (encode i).data = .ok i

/-- R81, R82, R84: a legal CMD word is exactly the word the encoder writes for the decoded instruction, and the DATA bits a
command ignores change nothing. -/
def Obligations.EncodeOfDecode : Prop :=
  ∀ (cmd data : Word) (i : Instr), decode cmd data = .ok i →
    (encode i).word = cmd ∧ decode cmd (encode i).data = .ok i

/-- R83: "A CMD word selects a command exactly when (CMD & mask) = match", and a word that no row selects is illegal. -/
def Obligations.DecodeSelectsByMaskAndMatch : Prop :=
  ∀ (cmd data : Word),
    (∀ row ∈ Spec.opcodeMap, (cmd &&& row.2.2 = row.2.1 ↔ ∃ i, decode cmd data = .ok i ∧ i.opcode = row.1)) ∧
    ((∀ row ∈ Spec.opcodeMap, cmd &&& row.2.2 ≠ row.2.1) ↔ ∃ e, decode cmd data = .error e)

/-- R87: words written out by hand from the syntax table decode to the instruction they stand for. -/
def Obligations.SampleWordsDecode : Prop :=
  decode 0x00000000 0x12345678 = .ok .nop ∧
  decode 0x01000002 0x00000010 = .ok (.cfgWrite 2 16) ∧
  decode 0x05000004 0x800000FF = .ok (.rowbufWrite 4 0x800000FF) ∧
  decode 0x10000000 0x00000007 = .ok (.decodeRow 7) ∧
  decode 0x20000000 0xAA123456 = .ok (.quant 0x12 0x34 0x56) ∧
  decode 0x21000080 0x001FF800 = .ok (.mix 0xF800 0x001F 128)

/-- R84: a CMD word that no row of R83 selects raises IllegalCommand: ERR keeps its first error, `rsp_data` is 0, and nothing
else changes but that the command has left the port. -/
def Obligations.IllegalWordRaisesIllegalCommand : Prop :=
  ∀ (s : State) (c : Command) (rest : List Command),
    s.rst = false → s.rsp = none → s.job = none → s.cmds = c :: rest →
    (∀ row ∈ Spec.opcodeMap, c.word &&& row.2.2 ≠ row.2.1) →
    step s = .next { s with cmds := rest, err := Spec.errAfter s.err 8, rsp := some ⟨8, 0⟩ }

/-! ## The step and the ports -/

/-- R44, R85: with no command in progress, no response offered and reset released, the step executes the command on the
command port. -/
def Obligations.StepRunsTheDecodedCommand : Prop :=
  ∀ (s : State) (c : Command) (rest : List Command) (i : Instr),
    s.rst = false → s.rsp = none → s.job = none → s.cmds = c :: rest → decode c.word c.data = .ok i →
    step s = exec i { s with cmds := rest }

/-- R44, R45: while a response is offered no command is accepted; the host takes the response or nothing changes. -/
def Obligations.ResponseIsTakenBeforeTheNextCommand : Prop :=
  ∀ (s : State) (r : Response), s.rst = false → s.rsp = some r →
    cmdReady s = false ∧
    (s.rspReady = true → step s = .next { s with rsp := none, responses := s.responses ++ [r] }) ∧
    (s.rspReady = false → step s = .next s)

/-- R212: "With no command in progress it is idle and changes no state." -/
def Obligations.IdleBlockChangesNothing : Prop :=
  ∀ s : State, s.rst = false → s.rsp = none → s.job = none → s.cmds = [] →
    ∀ n : Nat, Sys2Proof.core.run n s = .next s

/-- R236: a row whose record the sink does not accept never completes: any number of steps leaves the state as it is. -/
def Obligations.StoppedSinkHangsTheRow : Prop :=
  ∀ (s : State) (j : RowJob), s.rst = false → s.rsp = none → s.job = some j → s.sink = .records 0 →
    ∀ n : Nat, Sys2Proof.core.run n s = .next s

/-- R230: what asserting reset does, whatever is in progress. Both RAMs hold nothing written (what they read as is the
model's, log entry 2); what the sink accepted stays delivered. -/
def Obligations.ResetInputEffects : Prop :=
  ∀ s : State, s.rst = true → ∃ t, step s = .next t ∧
    (∀ r : Reg, readReg t r = 0) ∧ t.isOpen = false ∧ t.err = 0 ∧ errPending t = false ∧
    t.pal = [] ∧ t.rb = [] ∧ t.job = none ∧ pixPort t = none ∧ t.rsp = none ∧ cmdReady t = true ∧
    t.records = s.records ∧ t.responses = s.responses ∧ t.cmds = s.cmds ∧ t.params = s.params

/-- R230: the state after reset, for any parameters: every register reads 0, no error pends, no command is in progress, no
response and no record is offered. -/
def Obligations.ResetStateValues : Prop :=
  ∀ p : Params, (∀ r : Reg, readReg (State.resetWith p) r = 0) ∧ errPending (State.resetWith p) = false ∧
    cmdReady (State.resetWith p) = true ∧ (State.resetWith p).rsp = none ∧ pixPort (State.resetWith p) = none ∧
    (State.resetWith p).params = p

/-! ## Invariants -/

/-- The invariant holds after reset, for all parameters R5 admits, and State.reset is one of these states. -/
def Obligations.ResetMeetsTheInvariant : Prop :=
  (∀ p : Params, p.WellFormed → (State.resetWith p).Inv) ∧ State.reset.Inv

/-- Every step keeps the invariant: the RAMs' canonical form and bounds, ERR and the offered status a code the block raises
(R200), the derived registers those of the header group while open (R24, R35 to R39) and 0 while closed (R40), a waiting row
inside the image with its own record offered (R46, R48). -/
def Obligations.StepKeepsTheInvariant : Prop :=
  ∀ s t : State, s.Inv → step s = .next t → t.Inv

/-- R66, R238: in a state that meets the invariant the machine never stops: no fault, no refusal. -/
def Obligations.GoodStatesAlwaysStep : Prop :=
  ∀ s : State, s.Inv → ∃ t, step s = .next t

/-- R35, R36, R37, R38: the ranges of the derived registers in every state that meets the invariant. -/
def Obligations.DerivedRegisterRanges : Prop :=
  ∀ s : State, s.Inv →
    s.derived.imgW.toNat < 2 ^ 31 ∧ s.derived.imgH.toNat < 2 ^ 31 ∧ s.derived.palSize.toNat ≤ 256 ∧
    s.derived.stride.toNat % 4 = 0 ∧ s.derived.stride.toNat ≤ s.params.rowbufBytes ∧
    s.derived.shift.r.toNat < 32 ∧ s.derived.shift.g.toNat < 32 ∧ s.derived.shift.b.toNat < 32 ∧
    s.derived.shift.a.toNat < 32

/-- R66: while open, the bytes a row uses lie within STRIDE, STRIDE within the row buffer, and no column's extractor leaves
the row buffer. -/
def Obligations.ExtractorsStayInTheRowBuffer : Prop :=
  ∀ s : State, s.Inv → s.isOpen = true →
    usedRowBytes s ≤ s.derived.stride.toNat ∧ s.derived.stride.toNat ≤ s.params.rowbufBytes ∧
    ∀ c, c < s.derived.imgW.toNat → pixelColor s c ≠ .error .noByte

/-- R151: while open, BPP is one of the six depths, so a column's only error is OutOfRangeIndex, and only at 1, 4 or 8 bpp. -/
def Obligations.OnlyIndexedDepthsCanFail : Prop :=
  ∀ (s : State) (c : Nat) (e : ErrorKind), s.Inv → s.isOpen = true → c < s.derived.imgW.toNat →
    pixelColor s c = .error (.error e) → e = .outOfRangeIndex ∧ s.header.bpp.toNat ≤ 8

/-! ## Configuration, palette and lifecycle commands -/

/-- R100, R107, R108, R109, R40, R47: NOP changes nothing; CLOSE sets OPEN and every derived register to 0 and changes nothing
else; ERR_CLEAR sets ERR to 0, which makes `err_pending` 0, and changes nothing else. All answer (0, 0). -/
def Obligations.NopCloseErrClearResult : Prop :=
  ∀ s : State,
    exec .nop s = .next { s with rsp := some ⟨0, 0⟩ } ∧
    exec .closeBlock s =
      .next { s with isOpen := false, derived := ⟨0, 0, 0, 0, ⟨0, 0, 0, 0⟩, ⟨0, 0, 0, 0⟩⟩, rsp := some ⟨0, 0⟩ } ∧
    ∃ t, exec .errClear s = .next t ∧ t = { s with err := 0, rsp := some ⟨0, 0⟩ } ∧ errPending t = false

/-- R101, R23, R24, R25, R33: CFG_WRITE of a header register stores the value (BPP its low 16 bits) and closes an open block;
of a draw register stores it (BGCOLOR its low 16 bits) and closes nothing; of any other selector raises IllegalCommand. -/
def Obligations.CfgWriteResult : Prop :=
  ∀ (s : State) (sel : Byte) (v : Word),
    (sel.toNat ≤ 0x09 → s.isOpen = true →
      exec (.cfgWrite sel v) s =
        .next { s with header := Spec.headerAfter s.header sel.toNat v, isOpen := false, derived := .closed,
                       rsp := some ⟨0, 0⟩ }) ∧
    (sel.toNat ≤ 0x09 → s.isOpen = false →
      exec (.cfgWrite sel v) s =
        .next { s with header := Spec.headerAfter s.header sel.toNat v, rsp := some ⟨0, 0⟩ }) ∧
    (0x0A ≤ sel.toNat → sel.toNat ≤ 0x0C →
      exec (.cfgWrite sel v) s =
        .next { s with draw := Spec.drawAfter s.draw sel.toNat v, rsp := some ⟨0, 0⟩ }) ∧
    (0x0D ≤ sel.toNat →
      exec (.cfgWrite sel v) s = .next { s with err := Spec.errAfter s.err 8, rsp := some ⟨8, 0⟩ })

/-- R102, R23, R32: CFG_READ answers the register the selector names, and raises IllegalCommand for a reserved selector;
reading changes nothing else. -/
def Obligations.CfgReadResult : Prop :=
  ∀ (s : State) (sel : Byte),
    exec (.cfgRead sel) s =
      match Spec.registerRead s sel.toNat with
      | some v => .next { s with rsp := some ⟨0, v⟩ }
      | none => .next { s with err := Spec.errAfter s.err 8, rsp := some ⟨8, 0⟩ }

/-- R25, R33, R101, R102: a writable register reads back what was written: BPP and BGCOLOR the low 16 bits, every other register
all 32. -/
def Obligations.CfgWriteThenRead : Prop :=
  ∀ (s t : State) (sel : Byte) (v : Word), sel.toNat ≤ 0x0C → exec (.cfgWrite sel v) s = .next t →
    exec (.cfgRead sel) t =
      .next { t with rsp := some ⟨0, if sel.toNat = 0x00 ∨ sel.toNat = 0x0A then BitVec.ofNat 32 (v.toNat % 65536) else v⟩ }

/-- R103, R104, R41: PAL_WRITE stores the word at its index and PAL_READ answers the word at its index, whatever PAL_SIZE is;
every other palette word and every row-buffer byte reads as before, and nothing else changes. -/
def Obligations.PaletteWriteAndRead : Prop :=
  ∀ (s : State) (idx : Byte) (word : Word),
    exec (.palRead idx) s = .next { s with rsp := some ⟨0, palWord s idx⟩ } ∧
    ∃ t, exec (.palWrite idx word) s = .next t ∧
      palWord t idx = word ∧ (∀ j : Byte, j ≠ idx → palWord t j = palWord s j) ∧
      (∀ a, byteAt t a = byteAt s a) ∧ t = { s with pal := t.pal, rsp := some ⟨0, 0⟩ }

/-- R105, R106, R40: OPEN runs its seven checks in order; the first that fails answers its code and leaves the closed state; when
all pass it opens with the derived registers of R35 to R39. -/
def Obligations.OpenResult : Prop :=
  ∀ s : State,
    (∀ code, Spec.openError s.params s.header = some code →
      exec .openBlock s =
        .next { s with isOpen := false, derived := .closed, err := Spec.errAfter s.err code, rsp := some ⟨code, 0⟩ }) ∧
    (Spec.openError s.params s.header = none → ∃ d,
      exec .openBlock s = .next { s with isOpen := true, derived := d, rsp := some ⟨0, 0⟩ } ∧
      d.imgW = s.header.width ∧ d.imgH = s.header.height ∧
      d.stride = BitVec.ofNat 32 (Spec.strideBytes s.header.bpp.toNat s.header.width.toNat) ∧
      (16 ≤ s.header.bpp.toNat → d.palSize = 0) ∧
      (s.header.bpp.toNat < 16 → s.header.colorsUsed ≠ 0 → d.palSize = s.header.colorsUsed) ∧
      (s.header.bpp.toNat < 16 → s.header.colorsUsed = 0 → d.palSize.toNat = 2 ^ s.header.bpp.toNat) ∧
      (s.header.bpp.toNat = 32 ∧ s.header.compression.toNat = 3 →
        d.emask = s.header.mask ∧ Spec.IsLowestSetBit s.header.mask.r d.shift.r.toNat ∧
        Spec.IsLowestSetBit s.header.mask.g d.shift.g.toNat ∧ Spec.IsLowestSetBit s.header.mask.b d.shift.b.toNat ∧
        Spec.IsLowestSetBit s.header.mask.a d.shift.a.toNat) ∧
      (¬(s.header.bpp.toNat = 32 ∧ s.header.compression.toNat = 3) →
        d.emask = ⟨0x00FF0000, 0x0000FF00, 0x000000FF, 0xFF000000⟩ ∧ d.shift = ⟨16, 8, 0, 24⟩))

/-- R108, R162, D17: the closed block: DECODE_ROW answers (0, 0) and emits nothing, DECODE_PIXEL and ROWADDR raise Range,
PAL_LOOKUP raises OutOfRangeIndex. -/
def Obligations.ClosedBlockCommands : Prop :=
  ∀ (s : State) (x : Word) (idx : Byte), s.Inv → s.isOpen = false →
    exec (.decodeRow x) s = .next { s with rsp := some ⟨0, 0⟩ } ∧
    exec (.decodePixel x) s = .next { s with err := Spec.errAfter s.err 5, rsp := some ⟨5, 0⟩ } ∧
    exec (.rowAddr x) s = .next { s with err := Spec.errAfter s.err 5, rsp := some ⟨5, 0⟩ } ∧
    exec (.palLookup idx) s = .next { s with err := Spec.errAfter s.err 4, rsp := some ⟨4, 0⟩ }

/-! ## Scanline geometry and the row buffer -/

/-- R130: the stride is the least multiple of 4 that holds `bpp * w` bits. -/
def Obligations.StrideIsTheLeastPaddedLength : Prop :=
  ∀ bpp w : Nat, stride bpp w % 4 = 0 ∧ bpp * w ≤ 8 * stride bpp w ∧
    ∀ m, m % 4 = 0 → bpp * w ≤ 8 * m → stride bpp w ≤ m

/-- R133: ROWADDR answers the file offset modulo 2^32 for a row of the image, and raises Range otherwise. -/
def Obligations.RowAddrResult : Prop :=
  ∀ (s : State) (row : Word),
    (row.toNat < s.derived.imgH.toNat →
      exec (.rowAddr row) s =
        .next { s with rsp := some ⟨0, s.header.pixelOffset + (s.derived.imgH - row - 1) * s.derived.stride⟩ }) ∧
    (s.derived.imgH.toNat ≤ row.toNat →
      exec (.rowAddr row) s = .next { s with err := Spec.errAfter s.err 5, rsp := some ⟨5, 0⟩ })

/-- R132: rows are stored bottom-up: the last logical row is at PIXEL_OFFSET, and each row lies one STRIDE after the next
logical one. -/
def Obligations.RowsAreStoredBottomUp : Prop :=
  ∀ (s : State) (row : Word), row.toNat < s.derived.imgH.toNat →
    (row + 1 = s.derived.imgH →
      exec (.rowAddr row) s = .next { s with rsp := some ⟨0, s.header.pixelOffset⟩ }) ∧
    (row.toNat + 1 < s.derived.imgH.toNat → ∃ x,
      exec (.rowAddr (row + 1)) s = .next { s with rsp := some ⟨0, x⟩ } ∧
      exec (.rowAddr row) s = .next { s with rsp := some ⟨0, x + s.derived.stride⟩ })

/-- R134, R60, R63, R65: ROWBUF_WRITE of an aligned address in range stores byte k of DATA at ADDR + k; every byte outside the
four reads as before, and nothing else changes. -/
def Obligations.RowbufWriteResult : Prop :=
  ∀ (s : State) (addr : BitVec 16) (word : Word),
    addr.toNat % 4 = 0 → addr.toNat + 4 ≤ s.params.rowbufBytes →
    ∃ t, exec (.rowbufWrite addr word) s = .next t ∧
      (∀ k, k < 4 → byteAt t (addr.toNat + k) = BitVec.ofNat 8 (word.toNat / 2 ^ (8 * k))) ∧
      (∀ a, a < addr.toNat ∨ addr.toNat + 4 ≤ a → byteAt t a = byteAt s a) ∧
      (∀ j, palWord t j = palWord s j) ∧
      t = { s with rb := t.rb, rsp := some ⟨0, 0⟩ }

/-- R135, R60, R63, R65: ROWBUF_READ of an aligned address in range answers the four bytes little-endian and changes nothing. -/
def Obligations.RowbufReadResult : Prop :=
  ∀ (s : State) (addr : BitVec 16),
    addr.toNat % 4 = 0 → addr.toNat + 4 ≤ s.params.rowbufBytes →
    ∃ v : Word, exec (.rowbufRead addr) s = .next { s with rsp := some ⟨0, v⟩ } ∧
      v.toNat = (byteAt s addr.toNat).toNat + 256 * (byteAt s (addr.toNat + 1)).toNat
        + 65536 * (byteAt s (addr.toNat + 2)).toNat + 16777216 * (byteAt s (addr.toNat + 3)).toNat

/-- R63, R65, R134, R135: a misaligned or out-of-range word address is BadAddress and moves no data. -/
def Obligations.BadWordAddress : Prop :=
  ∀ (s : State) (addr : BitVec 16) (word : Word),
    addr.toNat % 4 ≠ 0 ∨ s.params.rowbufBytes < addr.toNat + 4 →
    exec (.rowbufWrite addr word) s = .next { s with err := Spec.errAfter s.err 6, rsp := some ⟨6, 0⟩ } ∧
    exec (.rowbufRead addr) s = .next { s with err := Spec.errAfter s.err 6, rsp := some ⟨6, 0⟩ }

/-- R61, R134, R135: a word written to the row buffer reads back. -/
def Obligations.RowbufWriteThenRead : Prop :=
  ∀ (s t : State) (addr : BitVec 16) (word : Word),
    addr.toNat % 4 = 0 → addr.toNat + 4 ≤ s.params.rowbufBytes →
    exec (.rowbufWrite addr word) s = .next t →
    exec (.rowbufRead addr) t = .next { t with rsp := some ⟨0, word⟩ }

/-! ## Pixel decoders -/

/-- R152, R153, R154, R161, R182: DECODE_PIXEL at 1, 4 and 8 bpp: the palette color of the column's index, quantized, or
OutOfRangeIndex at or above PAL_SIZE. -/
def Obligations.DecodePixelIndexed : Prop :=
  ∀ (s : State) (col : Word) (i : Byte), s.header.bpp.toNat ∈ [1, 4, 8] → col.toNat < s.derived.imgW.toNat →
    s.header.bpp.toNat * col.toNat / 8 < s.params.rowbufBytes →
    i.toNat = Spec.paletteIndex s s.header.bpp.toNat col.toNat →
    (i.toNat < s.derived.palSize.toNat →
      exec (.decodePixel col) s =
        .next { s with rsp := some ⟨0, BitVec.ofNat 32 (Spec.paletteQuantized s.params.paletteLayout (palWord s i))⟩ }) ∧
    (s.derived.palSize.toNat ≤ i.toNat →
      exec (.decodePixel col) s = .next { s with err := Spec.errAfter s.err 4, rsp := some ⟨4, 0⟩ })

/-- R155, R156, R161: DECODE_PIXEL at 16 bpp answers the little-endian 16-bit value unchanged; at 24 bpp it quantizes the
bytes B, G, R. Neither reads the masks, the palette or BGCOLOR. -/
def Obligations.DecodePixelDirect : Prop :=
  ∀ (s : State) (col : Word), col.toNat < s.derived.imgW.toNat →
    (s.header.bpp = 16 → 2 * col.toNat + 2 ≤ s.params.rowbufBytes →
      exec (.decodePixel col) s =
        .next { s with rsp := some ⟨0, BitVec.ofNat 32 ((byteAt s (2 * col.toNat)).toNat
                                          + 256 * (byteAt s (2 * col.toNat + 1)).toNat)⟩ }) ∧
    (s.header.bpp = 24 → 3 * col.toNat + 3 ≤ s.params.rowbufBytes →
      exec (.decodePixel col) s =
        .next { s with rsp := some ⟨0, BitVec.ofNat 32 (Spec.quantized (byteAt s (3 * col.toNat + 2))
                                          (byteAt s (3 * col.toNat + 1)) (byteAt s (3 * col.toNat)))⟩ })

/-- R157, R158, R161: DECODE_PIXEL at 32 bpp: extract the channels with the effective masks and shifts, quantize, and blend
against BGCOLOR with weight A in the order BLEND_ORDER names. -/
def Obligations.DecodePixelBlended : Prop :=
  ∀ (s : State) (col : Word) (r g b a : Byte) (p : Color),
    s.header.bpp = 32 → col.toNat < s.derived.imgW.toNat → 4 * col.toNat + 4 ≤ s.params.rowbufBytes →
    r = Spec.channel (Spec.pixel32 s col.toNat) s.derived.emask.r s.derived.shift.r →
    g = Spec.channel (Spec.pixel32 s col.toNat) s.derived.emask.g s.derived.shift.g →
    b = Spec.channel (Spec.pixel32 s col.toNat) s.derived.emask.b s.derived.shift.b →
    a = Spec.channel (Spec.pixel32 s col.toNat) s.derived.emask.a s.derived.shift.a →
    p.toNat = Spec.quantized r g b →
    (s.params.blendOrder = .bgIsA →
      exec (.decodePixel col) s =
        .next { s with rsp := some ⟨0, BitVec.ofNat 32 (Spec.mixedColor s.params.mixRounding s.draw.bgcolor p a)⟩ }) ∧
    (s.params.blendOrder = .pixelIsA →
      exec (.decodePixel col) s =
        .next { s with rsp := some ⟨0, BitVec.ofNat 32 (Spec.mixedColor s.params.mixRounding p s.draw.bgcolor a)⟩ })

/-- R161, R162: a column at or above IMG_W, and while open a row at or above IMG_H, is Range; nothing is emitted. -/
def Obligations.DecodeOutsideTheImage : Prop :=
  ∀ (s : State) (x : Word),
    (s.derived.imgW.toNat ≤ x.toNat →
      exec (.decodePixel x) s = .next { s with err := Spec.errAfter s.err 5, rsp := some ⟨5, 0⟩ }) ∧
    (s.isOpen = true → s.derived.imgH.toNat ≤ x.toNat →
      exec (.decodeRow x) s = .next { s with err := Spec.errAfter s.err 5, rsp := some ⟨5, 0⟩ })

/-- R162, R160, R68: DECODE_ROW of a row whose columns all have a color, with a sink that takes them: one record per column in
rising column order, at coordinates that wrap modulo 2^32, then the response (0, IMG_W). The sink as data, what it
takes and what it will take after, is the model's choice (log entry 3). -/
def Obligations.DecodeRowEmitsEveryColumn : Prop :=
  ∀ (s : State) (row : Word) (color : Nat → Color),
    s.isOpen = true → row.toNat < s.derived.imgH.toNat →
    (∀ c, c < s.derived.imgW.toNat → pixelColor s c = .ok (color c)) →
    s.sink.takes s.derived.imgW.toNat = true →
    exec (.decodeRow row) s =
      .next { s with
        records := s.records ++ (List.range s.derived.imgW.toNat).map fun c =>
          ⟨BitVec.ofNat 32 (s.draw.originX.toNat + c), BitVec.ofNat 32 (s.draw.originY.toNat + row.toNat), color c⟩
        sink := s.sink.after s.derived.imgW.toNat
        rsp := some ⟨0, s.derived.imgW⟩ }

/-- R162, R201, D16: a row that meets its first bad palette index at column k has emitted columns 0 to k - 1 and no other, and
answers OutOfRangeIndex with `rsp_data = k`. The sink as data is the model's choice (log entry 3). -/
def Obligations.DecodeRowStopsAtTheBadColumn : Prop :=
  ∀ (s : State) (row : Word) (k : Nat) (color : Nat → Color),
    s.isOpen = true → row.toNat < s.derived.imgH.toNat → k < s.derived.imgW.toNat →
    (∀ c, c < k → pixelColor s c = .ok (color c)) → pixelColor s k = .error (.error .outOfRangeIndex) →
    s.sink.takes k = true →
    exec (.decodeRow row) s =
      .next { s with
        records := s.records ++ (List.range k).map fun c =>
          ⟨BitVec.ofNat 32 (s.draw.originX.toNat + c), BitVec.ofNat 32 (s.draw.originY.toNat + row.toNat), color c⟩
        sink := s.sink.after k
        err := Spec.errAfter s.err 4
        rsp := some ⟨4, BitVec.ofNat 32 k⟩ }

/-- R46, R48, R236: a sink that takes k records and no more holds the row at column k: its record is offered, no response is
given. -/
def Obligations.DecodeRowWaitsForTheSink : Prop :=
  ∀ (s : State) (row : Word) (k : Nat) (color : Nat → Color),
    s.isOpen = true → row.toNat < s.derived.imgH.toNat → k < s.derived.imgW.toNat →
    (∀ c, c ≤ k → pixelColor s c = .ok (color c)) → s.sink = .records k →
    exec (.decodeRow row) s =
      .next { s with
        records := s.records ++ (List.range k).map fun c =>
          ⟨BitVec.ofNat 32 (s.draw.originX.toNat + c), BitVec.ofNat 32 (s.draw.originY.toNat + row.toNat), color c⟩
        sink := .records 0
        job := some ⟨row, k, ⟨BitVec.ofNat 32 (s.draw.originX.toNat + k),
                       BitVec.ofNat 32 (s.draw.originY.toNat + row.toNat), color k⟩⟩ }

/-- R46, R68, R238: how long the sink takes cannot change a row: a row held after some records and then let go on ends as the
same row with a sink that never held it. -/
def Obligations.SinkDelayCannotChangeARow : Prop :=
  ∀ (s t : State) (row : Word) (k : Nat) (later : SinkReady),
    s.rst = false → s.rsp = none → s.job = none →
    exec (.decodeRow row) { s with sink := .records k } = .next t → t.job ≠ none →
    step { t with sink := later } =
      exec (.decodeRow row) { s with sink := match later with
                                             | .always => .always
                                             | .records m => .records (k + m) }

/-- R150, R163: MASKSHIFT answers the position of the lowest set bit and InvalidFormat for 0; it writes no SHIFT or EMASK
register. -/
def Obligations.MaskShiftResult : Prop :=
  ∀ (s : State) (mask : Word),
    (mask ≠ 0 → ∃ n, n < 32 ∧ Spec.IsLowestSetBit mask n ∧
      exec (.maskShift mask) s = .next { s with rsp := some ⟨0, BitVec.ofNat 32 n⟩ }) ∧
    (mask = 0 → exec (.maskShift mask) s = .next { s with err := Spec.errAfter s.err 1, rsp := some ⟨1, 0⟩ })

/-! ## Color datapath -/

/-- R180, R181, R183, R184, R9: QUANT keeps the top 5, 6 and 5 bits of the channels; MIX interpolates each channel on its own,
operands in the order given, with the rounding MIX_ROUNDING names. Both change nothing else. -/
def Obligations.QuantAndMixResult : Prop :=
  ∀ (s : State) (r g b : Byte) (colorA colorB : Color) (w : Byte),
    exec (.quant r g b) s = .next { s with rsp := some ⟨0, BitVec.ofNat 32 (Spec.quantized r g b)⟩ } ∧
    exec (.mix colorA colorB w) s =
      .next { s with rsp := some ⟨0, BitVec.ofNat 32 (Spec.mixedColor s.params.mixRounding colorA colorB w)⟩ }

/-- R185, R182, R42: PAL_LOOKUP converts the entry below PAL_SIZE as the layout says, and raises OutOfRangeIndex otherwise. -/
def Obligations.PalLookupResult : Prop :=
  ∀ (s : State) (idx : Byte),
    (idx.toNat < s.derived.palSize.toNat →
      exec (.palLookup idx) s =
        .next { s with rsp := some ⟨0, BitVec.ofNat 32 (Spec.paletteQuantized s.params.paletteLayout (palWord s idx))⟩ }) ∧
    (s.derived.palSize.toNat ≤ idx.toNat →
      exec (.palLookup idx) s = .next { s with err := Spec.errAfter s.err 4, rsp := some ⟨4, 0⟩ })

/-- R186: the five laws of the mix, for all colors and weights. -/
def Obligations.MixLaws : Prop :=
  ∀ (rounding : MixRounding) (a b : Color) (w : Byte),
    ((unpack565 (mixColor rounding a b w)).r ≤ max (unpack565 a).r (unpack565 b).r ∧
      (unpack565 (mixColor rounding a b w)).g ≤ max (unpack565 a).g (unpack565 b).g ∧
      (unpack565 (mixColor rounding a b w)).b ≤ max (unpack565 a).b (unpack565 b).b) ∧
    (mixColor rounding a b 0 = a ∧ mixColor rounding a b 255 = b) ∧
    mixColor rounding a b w = mixColor rounding b a (255 - w) ∧
    mixColor .oneFloor a a w = a ∧
    ((unpack565 (mixColor .twoFloor a a w)).r
        = (if 255 ∣ (unpack565 a).r * w.toNat then (unpack565 a).r else (unpack565 a).r - 1) ∧
      (unpack565 (mixColor .twoFloor a a w)).g
        = (if 255 ∣ (unpack565 a).g * w.toNat then (unpack565 a).g else (unpack565 a).g - 1) ∧
      (unpack565 (mixColor .twoFloor a a w)).b
        = (if 255 ∣ (unpack565 a).b * w.toNat then (unpack565 a).b else (unpack565 a).b - 1))

/-- R187: quantization drops at most the low bits of each channel, is monotone in each channel, takes two values of a channel
to the same code exactly when they agree above the dropped bits, and reaches every code. -/
def Obligations.QuantizationBounds : Prop :=
  (∀ r g b : Byte, 8 * (unpack565 (quantize r g b)).r ≤ r.toNat ∧ r.toNat ≤ 8 * (unpack565 (quantize r g b)).r + 7 ∧
    4 * (unpack565 (quantize r g b)).g ≤ g.toNat ∧ g.toNat ≤ 4 * (unpack565 (quantize r g b)).g + 3 ∧
    8 * (unpack565 (quantize r g b)).b ≤ b.toNat ∧ b.toNat ≤ 8 * (unpack565 (quantize r g b)).b + 7) ∧
  (∀ r g b r' g' b' : Byte, r ≤ r' → g ≤ g' → b ≤ b' → quantize r g b ≤ quantize r' g' b') ∧
  (∀ r g b r' g' b' : Byte, quantize r g b = quantize r' g' b' ↔
    r.toNat / 8 = r'.toNat / 8 ∧ g.toNat / 4 = g'.toNat / 4 ∧ b.toNat / 8 = b'.toNat / 8) ∧
  (∀ c : Color, ∃ r g b : Byte, quantize r g b = c)

/-- R159: the fixed points of the blend: alpha 0 and alpha 255 give the background and the pixel exactly, in the order
BLEND_ORDER names. -/
def Obligations.BlendFixedPoints : Prop :=
  ∀ (p : Params) (bg pixel : Color),
    (p.blendOrder = .bgIsA → blend p bg pixel 0 = bg ∧ blend p bg pixel 255 = pixel) ∧
    (p.blendOrder = .pixelIsA → blend p bg pixel 0 = pixel ∧ blend p bg pixel 255 = bg)

/-! ## Errors and frames -/

/-- R202: ERR is first-error-wins: a command that answers an error code keeps an earlier error, and a command that succeeds
changes ERR only if it is ERR_CLEAR. -/
def Obligations.FirstErrorWins : Prop :=
  ∀ (i : Instr) (s t : State) (r : Response), s.rsp = none → exec i s = .next t → t.rsp = some r →
    (r.status ≠ 0 → t.err = Spec.errAfter s.err r.status) ∧
    (r.status = 0 → i ≠ .errClear → t.err = s.err) ∧
    (i = .errClear → t.err = 0)

/-- R47, R32, R202: only ERR_CLEAR or reset clears a pending error. -/
def Obligations.OnlyErrClearOrResetClears : Prop :=
  ∀ s t : State, step s = .next t → errPending s = true → errPending t = false →
    s.rst = true ∨ ∃ c rest, s.cmds = c :: rest ∧ decode c.word c.data = .ok .errClear

/-- R201: a failing command changes nothing but ERR and its response, except OPEN, which has closed the block, and DECODE_ROW,
whose earlier records stay emitted. -/
def Obligations.FailingCommandsChangeNothing : Prop :=
  ∀ (i : Instr) (s t : State) (r : Response), s.rsp = none → exec i s = .next t → t.rsp = some r → r.status ≠ 0 →
    (i = .openBlock → t = { s with isOpen := false, derived := .closed, err := t.err, rsp := t.rsp }) ∧
    ((∃ row, i = .decodeRow row) → (∃ more, t.records = s.records ++ more) ∧
      t = { s with records := t.records, sink := t.sink, err := t.err, rsp := t.rsp }) ∧
    (i ≠ .openBlock → (∀ row, i ≠ .decodeRow row) → t = { s with err := t.err, rsp := t.rsp })

/-- R45, R200: a command that ends answers exactly one response, and its status is 0 or a code the block raises; a DECODE_ROW that
waits on the sink has not answered. -/
def Obligations.OneResponsePerCommand : Prop :=
  ∀ (i : Instr) (s t : State), s.rsp = none → s.job = none → exec i s = .next t →
    (∃ r, t.rsp = some r ∧ legalErr r.status ∧ t.job = none) ∨
      (t.rsp = none ∧ t.job ≠ none ∧ ∃ row, i = .decodeRow row)

/-- The frame of the commands that only answer: NOP, CFG_READ, PAL_READ, ROWBUF_READ, DECODE_PIXEL, ROWADDR, QUANT, MIX,
PAL_LOOKUP and MASKSHIFT change no register but ERR, no palette word, no row-buffer byte and emit nothing. -/
def Obligations.AnsweringCommandsFrame : Prop :=
  ∀ (i : Instr) (s t : State),
    i.opcode ∈ [.nop, .cfgRead, .palRead, .rowbufRead, .decodePixel, .rowAddr, .quant, .mix, .palLookup, .maskShift] →
    exec i s = .next t →
    t = { s with err := t.err, rsp := t.rsp } ∧ (∀ a, byteAt t a = byteAt s a) ∧ ∀ j, palWord t j = palWord s j

/-- The frame of the lifecycle commands: CFG_WRITE changes only the register it names and, for a header register, OPEN and the
derived registers; OPEN and CLOSE change only those; ERR_CLEAR only ERR; none stores to a RAM or emits (R24, R40, R101, R107,
R109). -/
def Obligations.LifecycleCommandsFrame : Prop :=
  ∀ (i : Instr) (s t : State), i.opcode ∈ [.cfgWrite, .openBlock, .closeBlock, .errClear] → exec i s = .next t →
    t = { s with header := t.header, draw := t.draw, isOpen := t.isOpen, derived := t.derived, err := t.err,
                 rsp := t.rsp } ∧
    (∀ a, byteAt t a = byteAt s a) ∧ (∀ j, palWord t j = palWord s j) ∧
    (i.opcode ≠ .cfgWrite → t.header = s.header ∧ t.draw = s.draw) ∧
    (∀ sel v, i = .cfgWrite sel v →
      (∀ r : Reg, r.sel ≠ sel → r.group ≠ .derived → readReg t r = readReg s r) ∧
      (0x0A ≤ sel.toNat → t.isOpen = s.isOpen ∧ t.derived = s.derived)) ∧
    (i = .errClear → t.isOpen = s.isOpen ∧ t.derived = s.derived)

/-- The frame of DECODE_ROW: no register but ERR changes, no palette word, no row-buffer byte; it adds records and may leave the
row waiting (R162, R201, R240). -/
def Obligations.DecodeRowFrame : Prop :=
  ∀ (s t : State) (row : Word), exec (.decodeRow row) s = .next t →
    (∀ a, byteAt t a = byteAt s a) ∧ (∀ j, palWord t j = palWord s j) ∧ (∃ more, t.records = s.records ++ more) ∧
    t = { s with records := t.records, sink := t.sink, job := t.job, err := t.err, rsp := t.rsp }

/-! ## Whole-machine rules -/

/-- R32: only OPEN, CLOSE, a header-group CFG_WRITE and reset write OPEN, and with it the derived registers. -/
def Obligations.OnlyLifecycleCommandsWriteOpen : Prop :=
  ∀ s t : State, step s = .next t → t.isOpen ≠ s.isOpen ∨ t.derived ≠ s.derived →
    s.rst = true ∨ ∃ c rest, s.cmds = c :: rest ∧
      (decode c.word c.data = .ok .openBlock ∨ decode c.word c.data = .ok .closeBlock ∨
        ∃ sel v, sel.toNat ≤ 0x09 ∧ decode c.word c.data = .ok (.cfgWrite sel v))

/-- R46: "Only DECODE_ROW emits records", and a record once accepted stays the sink's, in order. -/
def Obligations.OnlyDecodeRowEmits : Prop :=
  ∀ s t : State, step s = .next t →
    (∃ more, t.records = s.records ++ more) ∧
    (t.records ≠ s.records → s.job ≠ none ∨
      ∃ c rest row, s.cmds = c :: rest ∧ decode c.word c.data = .ok (.decodeRow row))

/-- R68, R240: nothing but the host's PAL_WRITE and ROWBUF_WRITE (and reset) writes the palette RAM and the row buffer. -/
def Obligations.OnlyTheHostWritesTheRams : Prop :=
  ∀ s t : State, step s = .next t → s.rst = false →
    ((∃ j, palWord t j ≠ palWord s j) →
      ∃ c rest idx word, s.cmds = c :: rest ∧ decode c.word c.data = .ok (.palWrite idx word)) ∧
    ((∃ a, byteAt t a ≠ byteAt s a) →
      ∃ c rest addr word, s.cmds = c :: rest ∧ decode c.word c.data = .ok (.rowbufWrite addr word))

/-- R136: padding bytes and bytes past the row cannot change a pixel: replacing the row buffer by one that agrees on the bytes the
row uses changes no response and no record. -/
def Obligations.PaddingCannotChangeAPixel : Prop :=
  ∀ (s t : State) (rb' : Memory) (x : Word), s.Inv →
    (∀ a, a < usedRowBytes s → byteAt { s with rb := rb' } a = byteAt s a) →
    (exec (.decodePixel x) s = .next t → exec (.decodePixel x) { s with rb := rb' } = .next { t with rb := rb' }) ∧
    (exec (.decodeRow x) s = .next t → exec (.decodeRow x) { s with rb := rb' } = .next { t with rb := rb' })

/-- R233: when the host has loaded the row and the palette, a decode does not depend on what unwritten RAM holds. -/
def Obligations.LoadedRowsDecodeAlikeOnEveryBlock : Prop :=
  ∀ (s t : State) (epoch' : Nat) (x : Word), s.Inv → paletteLoaded s → rowLoaded s →
    (exec (.decodePixel x) s = .next t →
      exec (.decodePixel x) { s with epoch := epoch' } = .next { t with epoch := epoch' }) ∧
    (exec (.decodeRow x) s = .next t →
      exec (.decodeRow x) { s with epoch := epoch' } = .next { t with epoch := epoch' })

/-- R65, R230: no rule depends on BLOCK_BASE or RESET_STYLE. -/
def Obligations.NothingReadsBlockBaseOrResetStyle : Prop :=
  ∀ (s t : State) (base : Option Nat) (style : ResetStyle), step s = .next t →
    step { s with params := { s.params with blockBase := base, resetStyle := style } } =
      .next { t with params := { t.params with blockBase := base, resetStyle := style } }

/-- R87, R88: every command the assembler writes, pseudo-instructions included, is legal; PAL_RGB's word has the color asked for
under either layout. -/
def Obligations.AssembledCommandsAreLegal : Prop :=
  (∀ (p : Params) (l : AsmLine) (cs : List Command), assembleLine p l = .ok cs →
    ∀ c ∈ cs, ∃ i, decode c.word c.data = .ok i) ∧
  (∀ (p : Params) (i r g b : Byte), ∃ w : Word,
    assembleLine p (.palRgb i.toNat r.toNat g.toNat b.toNat) = .ok [encode (.palWrite i w)] ∧
    Spec.paletteQuantized p.paletteLayout w = Spec.quantized r g b)

/-- R136: the bits past the last column cannot change a pixel either. A row's pixels are its first BPP * IMG_W bits, each byte
taken from its most significant bit: replacing the row buffer by one that agrees on these bits changes no response and no
record, whatever padding bits, padding bytes and later bytes hold. -/
def Obligations.BitsPastTheLastColumnCannotChangeAPixel : Prop :=
  ∀ (s t : State) (rb' : Memory) (x : Word), s.Inv →
    (∀ n, n < s.header.bpp.toNat * s.derived.imgW.toNat →
      (byteAt { s with rb := rb' } (n / 8)).getLsbD (7 - n % 8) = (byteAt s (n / 8)).getLsbD (7 - n % 8)) →
    (exec (.decodePixel x) s = .next t → exec (.decodePixel x) { s with rb := rb' } = .next { t with rb := rb' }) ∧
    (exec (.decodeRow x) s = .next t → exec (.decodeRow x) { s with rb := rb' } = .next { t with rb := rb' })
end

