-- ==== Sys2Proof/Laws/Decode.lean ====
section
/-! SUPPORT. Encoding and decoding: what a legal CMD word is, and that the encoder's fields come back. -/

namespace Sys2Proof.Machine

open Sys2Proof

theorem Opcode.ofOp_op (o : Opcode) : Opcode.ofOp o.op = some o := by cases o <;> rfl

theorem Opcode.op_of_ofOp {b : Byte} {o : Opcode} (h : Opcode.ofOp b = some o) : o.op = b := by
  revert b; cases o <;> decide

theorem cmdWord_getLsbD (o : Opcode) (f : BitVec 16) (i : Nat) :
    (o.cmdWord f).getLsbD i = if i < 24 then f.getLsbD i else o.op.getLsbD (i - 24) := by
  simp only [Opcode.cmdWord, Opcode.matchBits, BitVec.getLsbD_or, BitVec.getLsbD_shiftLeft, BitVec.getLsbD_setWidth]
  by_cases h : i < 24
  · simp [h, show i < 32 by omega]
  · by_cases h2 : i < 32
    · simp [h, h2, show i - 24 < 32 by omega, BitVec.getLsbD_of_ge f i (by omega)]
    · simp [h, h2, BitVec.getLsbD_of_ge o.op (i-24) (by omega)]

theorem cmdWord_op (o : Opcode) (f : BitVec 16) : (o.cmdWord f).extractLsb' 24 8 = o.op := by
  apply BitVec.eq_of_getLsbD_eq; intro i hi
  rw [BitVec.getLsbD_extractLsb', cmdWord_getLsbD]; simp [hi]

theorem cmdWord_fields (o : Opcode) (f : BitVec 16) : (o.cmdWord f).extractLsb' 0 16 = f := by
  apply BitVec.eq_of_getLsbD_eq; intro i hi
  rw [BitVec.getLsbD_extractLsb', cmdWord_getLsbD]
  simp [hi, show i < 24 by omega]

theorem cmdWord_low (o : Opcode) (f : Byte) : (o.cmdWord (lowField f)).extractLsb' 0 8 = f := by
  apply BitVec.eq_of_getLsbD_eq; intro i hi
  rw [BitVec.getLsbD_extractLsb', cmdWord_getLsbD]
  simp [hi, show i < 24 by omega, lowField, show i < 16 by omega]

/-- A word with nothing outside its format's field is legal (R82, R84). -/
theorem cmdWord_legal (o : Opcode) (f : BitVec 16) (hf : ∀ i, o.format.fieldBits ≤ i → f.getLsbD i = false) :
    o.cmdWord f &&& o.mask = o.matchBits := by
  have hw : o.format.fieldBits ≤ 16 := by cases o <;> decide
  apply BitVec.eq_of_getLsbD_eq; intro i hi
  rw [BitVec.getLsbD_and, cmdWord_getLsbD]
  simp only [Opcode.mask, Opcode.matchBits,
   BitVec.getLsbD_shiftLeft, BitVec.getLsbD_allOnes, BitVec.getLsbD_setWidth, hi]
  by_cases h1 : i < 24
  · by_cases h2 : o.format.fieldBits ≤ i
    · rw [if_pos h1, hf i h2]; simp [h1]
    · simp [h1, show i < o.format.fieldBits by omega]
  · simp [h1, show ¬ i < o.format.fieldBits by omega, show i - 24 < 32 by omega, show i - o.format.fieldBits < 32 by omega]

theorem lowField_hi (f : Byte) (i : Nat) (h : 8 ≤ i) : (lowField f).getLsbD i = false := by
  simp [lowField, BitVec.getLsbD_setWidth, BitVec.getLsbD_of_ge f i h]

/-- The encoder writes legal words (R83). -/
theorem encode_legal (i : Instr) : (encode i).word &&& i.opcode.mask = i.opcode.matchBits := by
  cases i <;> simp only [encode, Instr.opcode]
  all_goals first
    | decide
    | exact cmdWord_legal _ _ (lowField_hi _)
    | exact cmdWord_legal _ _ (fun i hi => BitVec.getLsbD_of_ge _ _ hi)

theorem encode_op (i : Instr) : (encode i).word.extractLsb' 24 8 = i.opcode.op := by
  cases i <;> exact cmdWord_op _ _

theorem rgb_fields (r g b : Byte) (v : Word) (h : v = (r.setWidth 32 <<< 16) ||| (g.setWidth 32 <<< 8) ||| b.setWidth 32) :
  v.extractLsb' 16 8 = r ∧ v.extractLsb' 8 8 = g ∧ v.extractLsb' 0 8 = b := by
  subst h
  refine ⟨?_, ?_, ?_⟩ <;> (apply BitVec.eq_of_getLsbD_eq; intro i hi; rw [BitVec.getLsbD_extractLsb']; interval_cases i <;> simp [BitVec.getLsbD_of_ge])

theorem rgb_fields_high (r g b : Byte) (v : Word) (h : v = (r.setWidth 32 <<< 24) ||| (g.setWidth 32 <<< 16) ||| (b.setWidth 32 <<< 8)) :
  v.extractLsb' (8 * 3) 8 = r ∧ v.extractLsb' (8 * 2) 8 = g ∧ v.extractLsb' (8 * 1) 8 = b := by
  subst h
  refine ⟨?_, ?_, ?_⟩ <;> (apply BitVec.eq_of_getLsbD_eq; intro i hi; rw [BitVec.getLsbD_extractLsb']; interval_cases i <;> simp [BitVec.getLsbD_of_ge])

theorem colors_fields (a b : Color) :
  ((b.setWidth 32 <<< 16) ||| a.setWidth 32).extractLsb' 0 16 = a ∧ ((b.setWidth 32 <<< 16) ||| a.setWidth 32).extractLsb' 16 16 = b := by
  refine ⟨?_, ?_⟩ <;> (apply BitVec.eq_of_getLsbD_eq; intro i hi; rw [BitVec.getLsbD_extractLsb']; interval_cases i <;> simp [BitVec.getLsbD_of_ge])

theorem assemble_encode (i : Instr) : i.opcode.assemble (encode i).word (encode i).data = i := by
  cases i <;> simp only [Opcode.assemble, encode, Instr.opcode, cmdWord_fields, cmdWord_low]
  · obtain ⟨h1,h2,h3⟩ := rgb_fields _ _ _ _ rfl
    rw [h1,h2,h3]
  · rw [(colors_fields _ _).1, (colors_fields _ _).2]

/-- What a successful decode says of the word (R82, R84). -/
theorem decode_ok {cmd data : Word} {i : Instr} (h : decode cmd data = .ok i) :
    ∃ o : Opcode, o.op = cmd.extractLsb' 24 8 ∧ cmd &&& o.mask = o.matchBits ∧ i = o.assemble cmd data := by
  unfold decode at h
  split at h
  · cases h
  · next o ho =>
    split at h
    · next hl => cases h; exact ⟨o, Opcode.op_of_ofOp ho, hl, rfl⟩
    · cases h

/-- A legal word decodes (R83, R84). -/
theorem decode_of_legal {cmd : Word} (data : Word) {o : Opcode} (hl : cmd &&& o.mask = o.matchBits) :
    decode cmd data = .ok (o.assemble cmd data) := by
  have hop : cmd.extractLsb' 24 8 = o.op := by
    apply BitVec.eq_of_getLsbD_eq; intro i hi
    have := congrArg (fun v => v.getLsbD (24 + i)) hl
    have hw : o.format.fieldBits ≤ 16 := by cases o <;> decide
    simp only [Opcode.mask, Opcode.matchBits, BitVec.getLsbD_and, BitVec.getLsbD_shiftLeft, BitVec.getLsbD_allOnes, BitVec.getLsbD_setWidth] at this
    rw [BitVec.getLsbD_extractLsb']
    simpa [hi, show 24 + i < 32 by omega, show ¬ 24 + i < o.format.fieldBits by omega,
      show 24 + i - o.format.fieldBits < 32 by omega, show i < 32 by omega] using this
  simp [decode, hop, Opcode.ofOp_op, hl]

theorem legal_word {cmd : Word} {o : Opcode} (hl : cmd &&& o.mask = o.matchBits) :
    cmd = o.cmdWord (cmd.extractLsb' 0 16) ∧ ∀ i, o.format.fieldBits ≤ i → (cmd.extractLsb' 0 16).getLsbD i = false := by
  have hw : o.format.fieldBits ≤ 16 := by cases o <;> decide
  have key : ∀ i, o.format.fieldBits ≤ i → i < 32 → cmd.getLsbD i = (!decide (i < 24) && o.op.getLsbD (i-24)) := by
    intro i h1 h2
    have := congrArg (fun v => v.getLsbD i) hl
    simp only [Opcode.mask, Opcode.matchBits, BitVec.getLsbD_and, BitVec.getLsbD_shiftLeft, BitVec.getLsbD_allOnes, BitVec.getLsbD_setWidth] at this
    simpa [h2, show ¬ i < o.format.fieldBits by omega, show i - o.format.fieldBits < 32 by omega, show i - 24 < 32 by omega] using this
  constructor
  · apply BitVec.eq_of_getLsbD_eq; intro i hi
    rw [cmdWord_getLsbD, BitVec.getLsbD_extractLsb']
    by_cases h : i < 16
    · simp [h, show i < 24 by omega]
    · rw [key i (by omega) hi]; by_cases h24 : i < 24 <;> simp [h, h24]
  · intro i h
    rw [BitVec.getLsbD_extractLsb']
    by_cases h16 : i < 16
    · simp [h16, key i h (by omega), show i < 24 by omega]
    · simp [h16]

theorem assemble_opcode (o : Opcode) (cmd data : Word) : (o.assemble cmd data).opcode = o := by cases o <;> rfl

/-- A legal word is the encoder's word of the instruction it names. -/
theorem encode_assemble {cmd data : Word} {o : Opcode} (hl : cmd &&& o.mask = o.matchBits) :
    (encode (o.assemble cmd data)).word = cmd := by
  obtain ⟨h1, h2⟩ := legal_word hl
  have hz : o.format.fieldBits = 0 → cmd.extractLsb' 0 16 = 0 := by
    intro h; apply BitVec.eq_of_getLsbD_eq; intro i hi; rw [h2 i (by omega)]; simp
  have hl : o.format.fieldBits = 8 → cmd.extractLsb' 0 16 = lowField (cmd.extractLsb' 0 8) := by
    intro h; apply BitVec.eq_of_getLsbD_eq; intro i hi
    by_cases hi8 : i < 8
    · rw [lowField, BitVec.getLsbD_setWidth, BitVec.getLsbD_extractLsb', BitVec.getLsbD_extractLsb']; simp [hi, hi8]
    · rw [h2 i (by omega), lowField_hi _ _ (by omega)]
  conv_rhs => rw [h1]
  cases o <;> first
    | (rw [hz rfl]; rfl)
    | (rw [hl rfl]; rfl)
    | rfl

theorem opcodeMap_spec : ∀ row ∈ Spec.opcodeMap, row.2.1 = row.1.matchBits ∧ row.2.2 = row.1.mask := by decide

theorem opcodeMap_all (o : Opcode) : (o, o.matchBits, o.mask) ∈ Spec.opcodeMap := by cases o <;> decide

end Sys2Proof.Machine
end

