-- ==== Sys2Proof/Laws/Assembler.lean ====
section
/-! SUPPORT. The assembler: an accepted number is the field it becomes, and an expansion's commands are encoder words. -/

namespace Sys2Proof.Machine

open Sys2Proof

theorem bind_ok {α β : Type} {e : Except AsmError α} {f : α → Except AsmError β} {b : β} (h : (e >>= f) = .ok b) :
    ∃ a, e = .ok a ∧ f a = .ok b := by
  cases e with
  | error x => cases h
  | ok a => exact ⟨a, rfl, h⟩

theorem asmField_toNat (n : Nat) (e) (b : BitVec n) : asmField n e b.toNat = .ok b := by
  unfold asmField; rw [if_pos b.isLt, BitVec.ofNat_toNat, BitVec.setWidth_eq]

end Sys2Proof.Machine
end

