-- ==== Sys2Proof/Laws/Color.lean ====
section
/-! SUPPORT. The color datapath by number: packing, quantizing, mixing and the palette word's color. -/

namespace Sys2Proof.Machine

open Sys2Proof

theorem pack565_toNat {l : Lanes} (hr : l.r < 32) (hg : l.g < 64) (hb : l.b < 32) :
    (pack565 l).toNat = Spec.color565 l.r l.g l.b := by
  have h1 : (l.g <<< 5 ||| l.b) = l.g <<< 5 + l.b := (Nat.shiftLeft_add_eq_or_of_lt (by omega) _).symm
  have h2 : l.g <<< 5 + l.b < 2 ^ 11 := by rw [Nat.shiftLeft_eq]; omega
  have h3 : (l.r <<< 11 ||| (l.g <<< 5 + l.b)) = l.r <<< 11 + (l.g <<< 5 + l.b) :=
    (Nat.shiftLeft_add_eq_or_of_lt h2 _).symm
  rw [pack565, Nat.or_assoc, h1, h3, BitVec.toNat_ofNat, Nat.shiftLeft_eq, Nat.shiftLeft_eq, Spec.color565]
  omega

theorem unpack565_eq (c : Color) :
    unpack565 c = { r := c.toNat / 2048, g := c.toNat / 32 % 64, b := c.toNat % 32 } := by
  have := c.isLt
  simp only [unpack565, BitVec.extractLsb'_toNat, Nat.shiftRight_eq_div_pow, Nat.reducePow, Nat.div_one, Lanes.mk.injEq, and_true]
  omega

theorem unpack565_bounds (c : Color) : (unpack565 c).r < 32 ∧ (unpack565 c).g < 64 ∧ (unpack565 c).b < 32 := by
  have := c.isLt
  rw [unpack565_eq]
  refine ⟨?_, ?_, ?_⟩ <;> dsimp only <;> omega

theorem unpack565_pack565 {l : Lanes} (hr : l.r < 32) (hg : l.g < 64) (hb : l.b < 32) : unpack565 (pack565 l) = l := by
  rw [unpack565_eq, pack565_toNat hr hg hb, Spec.color565]
  obtain ⟨r, g, b⟩ := l
  simp only [Lanes.mk.injEq] at *
  refine ⟨?_, ?_, ?_⟩ <;> omega

theorem pack565_unpack565 (c : Color) : pack565 (unpack565 c) = c := by
  obtain ⟨h1, h2, h3⟩ := unpack565_bounds c
  apply BitVec.eq_of_toNat_eq
  rw [pack565_toNat h1 h2 h3, unpack565_eq, Spec.color565]
  have := c.isLt
  dsimp only; omega

theorem quantize_lanes (r g b : Byte) :
    unpack565 (quantize r g b) = { r := r.toNat / 8, g := g.toNat / 4, b := b.toNat / 8 } := by
  have := r.isLt; have := g.isLt; have := b.isLt
  rw [quantize, unpack565_pack565] <;> simp only [Nat.shiftRight_eq_div_pow] <;> omega

/-- `quantize` by number (R180). -/
theorem quantize_toNat (r g b : Byte) : (quantize r g b).toNat = Spec.quantized r g b := by
  have := r.isLt; have := g.isLt; have := b.isLt
  rw [quantize, pack565_toNat] <;> simp only [Nat.shiftRight_eq_div_pow, Spec.quantized] <;> omega

theorem mixChannel_eq (m : MixRounding) (w ca cb : Nat) : mixChannel m w ca cb = Spec.mixed m w ca cb := by
  cases m <;> rfl

theorem floor_sum_le (a b : Nat) : a / 255 + b / 255 ≤ (a + b) / 255 := by omega

theorem mixChannel_le (m : MixRounding) {w ca cb : Nat} (hw : w ≤ 255) : mixChannel m w ca cb ≤ max ca cb := by
  have h : (ca * (255 - w) + cb * w) / 255 ≤ max ca cb := by
    have h1 : ca * (255 - w) ≤ max ca cb * (255 - w) := Nat.mul_le_mul_right _ (Nat.le_max_left _ _)
    have h2 : cb * w ≤ max ca cb * w := Nat.mul_le_mul_right _ (Nat.le_max_right _ _)
    have h3 : max ca cb * (255 - w) + max ca cb * w = max ca cb * 255 := by
      rw [← Nat.mul_add]; congr 1; omega
    omega
  cases m
  · exact Nat.le_trans (floor_sum_le _ _) h
  · exact h

theorem mixColor_lanes (m : MixRounding) (a b : Color) (w : Byte) :
    unpack565 (mixColor m a b w) =
      { r := mixChannel m w.toNat (unpack565 a).r (unpack565 b).r
        g := mixChannel m w.toNat (unpack565 a).g (unpack565 b).g
        b := mixChannel m w.toNat (unpack565 a).b (unpack565 b).b } := by
  obtain ⟨a1, a2, a3⟩ := unpack565_bounds a
  obtain ⟨b1, b2, b3⟩ := unpack565_bounds b
  have hw : w.toNat ≤ 255 := by have := w.isLt; omega
  exact unpack565_pack565 (Nat.lt_of_le_of_lt (mixChannel_le m hw) (by omega))
    (Nat.lt_of_le_of_lt (mixChannel_le m hw) (by omega)) (Nat.lt_of_le_of_lt (mixChannel_le m hw) (by omega))

/-- `mix` by number (R181). -/
theorem mixColor_toNat (m : MixRounding) (a b : Color) (w : Byte) : (mixColor m a b w).toNat = Spec.mixedColor m a b w := by
  obtain ⟨a1, a2, a3⟩ := unpack565_bounds a
  obtain ⟨b1, b2, b3⟩ := unpack565_bounds b
  have hw : w.toNat ≤ 255 := by have := w.isLt; omega
  have := pack565_toNat (l := ⟨mixChannel m w.toNat (unpack565 a).r (unpack565 b).r, 
     mixChannel m w.toNat (unpack565 a).g (unpack565 b).g, mixChannel m w.toNat (unpack565 a).b (unpack565 b).b⟩)
    (Nat.lt_of_le_of_lt (mixChannel_le m hw) (by omega))
    (Nat.lt_of_le_of_lt (mixChannel_le m hw) (by omega)) (Nat.lt_of_le_of_lt (mixChannel_le m hw) (by omega))
  rw [mixColor, this]
  simp only [mixChannel_eq, unpack565_eq, Spec.mixedColor]

theorem color_ext {a b : Color} (h : unpack565 a = unpack565 b) : a = b := by
  rw [← pack565_unpack565 a, ← pack565_unpack565 b, h]

theorem byteOf_toNat (v : Word) (k : Nat) : (byteOf v k).toNat = v.toNat / 2 ^ (8 * k) % 256 := by
  simp [byteOf, BitVec.extractLsb'_toNat, Nat.shiftRight_eq_div_pow]

/-- A palette word's color by number (R42, R180). -/
theorem paletteColor_toNat (l : PaletteLayout) (e : Word) : (paletteColor l e).toNat = Spec.paletteQuantized l e := by
  have := e.isLt
  cases l <;> simp [paletteColor, quantize_toNat, Spec.quantized, byteOf_toNat, Spec.paletteQuantized, Spec.color565]
  omega

theorem color_setWidth (c : Color) : c.setWidth 32 = BitVec.ofNat 32 c.toNat := by
  apply BitVec.eq_of_toNat_eq; simp

end Sys2Proof.Machine
end

