-- ==== Sys2Proof/Laws/Memory.lean ====
section
/-! SUPPORT. The RAM operations: a read after a write, and that every write keeps the canonical form. -/

namespace Sys2Proof.Machine

variable {α : Type}

@[simp] theorem Ram.get_set_same (m : List (Nat × α)) (key : Nat) (v : α) :
    Ram.get (Ram.set m key v) key = some v := by
  induction m with
  | nil => simp [Ram.set, Ram.get]
  | cons x rest ih =>
    obtain ⟨k, w⟩ := x
    by_cases h1 : key < k
    · simp [Ram.set, h1, Ram.get]
    · by_cases h2 : key = k
      · simp [Ram.set, h2, Ram.get]
      · simp [Ram.set, h1, h2, Ram.get, Ne.symm h2, ih]

theorem Ram.get_set_other (m : List (Nat × α)) {key other : Nat} (v : α) (h : other ≠ key) :
    Ram.get (Ram.set m key v) other = Ram.get m other := by
  induction m with
  | nil => simp [Ram.set, Ram.get, Ne.symm h]
  | cons x rest ih =>
    obtain ⟨k, w⟩ := x
    by_cases h1 : key < k
    · simp [Ram.set, h1, Ram.get, Ne.symm h]
    · by_cases h2 : key = k
      · subst h2
        simp [Ram.set, Ram.get, Ne.symm h]
      · simp [Ram.set, h1, h2, Ram.get, ih]

/-- A write lists its own key and otherwise only keys listed before. -/
theorem Ram.mem_set {m : List (Nat × α)} {key : Nat} {v : α} {x : Nat × α} (h : x ∈ Ram.set m key v) :
    x = (key, v) ∨ x ∈ m := by
  induction m with
  | nil => simpa [Ram.set] using h
  | cons y rest ih =>
    obtain ⟨k, w⟩ := y
    by_cases h1 : key < k
    · simpa [Ram.set, h1] using h
    · by_cases h2 : key = k
      · subst h2
        simp only [Ram.set, Nat.lt_irrefl, if_false, if_true, List.mem_cons] at h
        exact h.imp_right (List.mem_cons_of_mem _)
      · simp only [Ram.set, h1, h2, if_false, List.mem_cons] at h ⊢
        rcases h with h | h
        · exact .inr (.inl h)
        · rcases ih h with h | h
          · exact .inl h
          · exact .inr (.inr h)

theorem Ram.set_wf {size : Nat} {m : List (Nat × α)} {key : Nat} (v : α) (hm : Ram.wf size m) (hk : key < size) :
    Ram.wf size (Ram.set m key v) := by
  induction m with
  | nil => simpa [Ram.set, Ram.wf] using hk
  | cons y rest ih =>
    obtain ⟨k, w⟩ := y
    obtain ⟨hp, hb⟩ := hm
    rw [List.pairwise_cons] at hp
    have hrest : Ram.wf size rest := ⟨hp.2, fun x hx => hb x (List.mem_cons_of_mem _ hx)⟩
    by_cases h1 : key < k
    · simp only [Ram.set, h1, if_true]
      refine ⟨List.pairwise_cons.2 ⟨?_, List.pairwise_cons.2 hp⟩, ?_⟩
      · intro x hx
        rcases List.mem_cons.1 hx with rfl | hx
        · exact h1
        · exact Nat.lt_trans h1 (hp.1 x hx)
      · intro x hx
        rcases List.mem_cons.1 hx with rfl | hx
        · exact hk
        · exact hb x hx
    · by_cases h2 : key = k
      · subst h2
        simp only [Ram.set, Nat.lt_irrefl, if_false, if_true]
        refine ⟨List.pairwise_cons.2 ⟨hp.1, hp.2⟩, ?_⟩
        intro x hx
        rcases List.mem_cons.1 hx with rfl | hx
        · exact hk
        · exact hrest.2 x hx
      · simp only [Ram.set, h1, h2, if_false]
        obtain ⟨ip, ib⟩ := ih hrest
        refine ⟨List.pairwise_cons.2 ⟨?_, ip⟩, ?_⟩
        · intro x hx
          rcases Ram.mem_set hx with rfl | hx
          · show k < key
            omega
          · exact hp.1 x hx
        · intro x hx
          rcases List.mem_cons.1 hx with rfl | hx
          · exact hb _ List.mem_cons_self
          · exact ib x hx

theorem Memory.get_setBytes_other (m : Memory) (addr : Nat) (bs : List Byte) {a : Nat}
    (h : a < addr ∨ addr + bs.length ≤ a) : Ram.get (m.setBytes addr bs) a = Ram.get m a := by
  induction bs generalizing m addr with
  | nil => rfl
  | cons b bs ih =>
    simp only [List.length_cons] at h
    rw [Memory.setBytes, ih _ _ (by omega), Ram.get_set_other _ _ (by omega)]

theorem Memory.get_setBytes (m : Memory) (addr : Nat) (bs : List Byte) {k : Nat} (h : k < bs.length) :
    Ram.get (m.setBytes addr bs) (addr + k) = some bs[k] := by
  induction bs generalizing m addr k with
  | nil => simp at h
  | cons b bs ih =>
    cases k with
    | zero =>
      rw [Memory.setBytes, Memory.get_setBytes_other _ _ _ (by omega)]
      simp
    | succ k =>
      rw [Memory.setBytes, show addr + (k + 1) = addr + 1 + k by omega, ih _ _ (by simpa using h)]
      simp

theorem Memory.setBytes_wf {size : Nat} {m : Memory} {addr : Nat} {bs : List Byte} (hm : Memory.wf size m)
    (h : addr + bs.length ≤ size) : Memory.wf size (m.setBytes addr bs) := by
  induction bs generalizing m addr with
  | nil => exact hm
  | cons b bs ih =>
    simp only [List.length_cons] at h
    exact ih (Ram.set_wf b hm (by omega)) (by omega)

end Sys2Proof.Machine
end

