-- ==== Sys2Proof/Laws/State.lean ====
section
/-! SUPPORT. What each shared operation does to each field of the state: one lemma per field per operation. -/

namespace Sys2Proof.Machine

@[simp] theorem succeed_params (data : Word) (s : State) : (succeed data s).params = s.params := rfl
@[simp] theorem succeed_header (data : Word) (s : State) : (succeed data s).header = s.header := rfl
@[simp] theorem succeed_draw (data : Word) (s : State) : (succeed data s).draw = s.draw := rfl
@[simp] theorem succeed_isOpen (data : Word) (s : State) : (succeed data s).isOpen = s.isOpen := rfl
@[simp] theorem succeed_err (data : Word) (s : State) : (succeed data s).err = s.err := rfl
@[simp] theorem succeed_derived (data : Word) (s : State) : (succeed data s).derived = s.derived := rfl
@[simp] theorem succeed_pal (data : Word) (s : State) : (succeed data s).pal = s.pal := rfl
@[simp] theorem succeed_rb (data : Word) (s : State) : (succeed data s).rb = s.rb := rfl
@[simp] theorem succeed_epoch (data : Word) (s : State) : (succeed data s).epoch = s.epoch := rfl
@[simp] theorem succeed_cmds (data : Word) (s : State) : (succeed data s).cmds = s.cmds := rfl
@[simp] theorem succeed_rspReady (data : Word) (s : State) : (succeed data s).rspReady = s.rspReady := rfl
@[simp] theorem succeed_rsp (data : Word) (s : State) : (succeed data s).rsp = some { status := 0, data := data } := rfl
@[simp] theorem succeed_sink (data : Word) (s : State) : (succeed data s).sink = s.sink := rfl
@[simp] theorem succeed_job (data : Word) (s : State) : (succeed data s).job = s.job := rfl
@[simp] theorem succeed_rst (data : Word) (s : State) : (succeed data s).rst = s.rst := rfl
@[simp] theorem succeed_records (data : Word) (s : State) : (succeed data s).records = s.records := rfl
@[simp] theorem succeed_responses (data : Word) (s : State) : (succeed data s).responses = s.responses := rfl

@[simp] theorem raiseError_params (e : ErrorKind) (data : Word) (s : State) : (raiseError e data s).params = s.params := rfl
@[simp] theorem raiseError_header (e : ErrorKind) (data : Word) (s : State) : (raiseError e data s).header = s.header := rfl
@[simp] theorem raiseError_draw (e : ErrorKind) (data : Word) (s : State) : (raiseError e data s).draw = s.draw := rfl
@[simp] theorem raiseError_isOpen (e : ErrorKind) (data : Word) (s : State) : (raiseError e data s).isOpen = s.isOpen := rfl
@[simp] theorem raiseError_err (e : ErrorKind) (data : Word) (s : State) : (raiseError e data s).err = stickyErr s.err e := rfl
@[simp] theorem raiseError_derived (e : ErrorKind) (data : Word) (s : State) : (raiseError e data s).derived = s.derived := rfl
@[simp] theorem raiseError_pal (e : ErrorKind) (data : Word) (s : State) : (raiseError e data s).pal = s.pal := rfl
@[simp] theorem raiseError_rb (e : ErrorKind) (data : Word) (s : State) : (raiseError e data s).rb = s.rb := rfl
@[simp] theorem raiseError_epoch (e : ErrorKind) (data : Word) (s : State) : (raiseError e data s).epoch = s.epoch := rfl
@[simp] theorem raiseError_cmds (e : ErrorKind) (data : Word) (s : State) : (raiseError e data s).cmds = s.cmds := rfl
@[simp] theorem raiseError_rspReady (e : ErrorKind) (data : Word) (s : State) : (raiseError e data s).rspReady = s.rspReady := rfl
@[simp] theorem raiseError_rsp (e : ErrorKind) (data : Word) (s : State) : (raiseError e data s).rsp = some { status := e.code, data := data } := rfl
@[simp] theorem raiseError_sink (e : ErrorKind) (data : Word) (s : State) : (raiseError e data s).sink = s.sink := rfl
@[simp] theorem raiseError_job (e : ErrorKind) (data : Word) (s : State) : (raiseError e data s).job = s.job := rfl
@[simp] theorem raiseError_rst (e : ErrorKind) (data : Word) (s : State) : (raiseError e data s).rst = s.rst := rfl
@[simp] theorem raiseError_records (e : ErrorKind) (data : Word) (s : State) : (raiseError e data s).records = s.records := rfl
@[simp] theorem raiseError_responses (e : ErrorKind) (data : Word) (s : State) : (raiseError e data s).responses = s.responses := rfl

@[simp] theorem clearError_params (s : State) : (clearError s).params = s.params := rfl
@[simp] theorem clearError_header (s : State) : (clearError s).header = s.header := rfl
@[simp] theorem clearError_draw (s : State) : (clearError s).draw = s.draw := rfl
@[simp] theorem clearError_isOpen (s : State) : (clearError s).isOpen = s.isOpen := rfl
@[simp] theorem clearError_err (s : State) : (clearError s).err = 0 := rfl
@[simp] theorem clearError_derived (s : State) : (clearError s).derived = s.derived := rfl
@[simp] theorem clearError_pal (s : State) : (clearError s).pal = s.pal := rfl
@[simp] theorem clearError_rb (s : State) : (clearError s).rb = s.rb := rfl
@[simp] theorem clearError_epoch (s : State) : (clearError s).epoch = s.epoch := rfl
@[simp] theorem clearError_cmds (s : State) : (clearError s).cmds = s.cmds := rfl
@[simp] theorem clearError_rspReady (s : State) : (clearError s).rspReady = s.rspReady := rfl
@[simp] theorem clearError_rsp (s : State) : (clearError s).rsp = s.rsp := rfl
@[simp] theorem clearError_sink (s : State) : (clearError s).sink = s.sink := rfl
@[simp] theorem clearError_job (s : State) : (clearError s).job = s.job := rfl
@[simp] theorem clearError_rst (s : State) : (clearError s).rst = s.rst := rfl
@[simp] theorem clearError_records (s : State) : (clearError s).records = s.records := rfl
@[simp] theorem clearError_responses (s : State) : (clearError s).responses = s.responses := rfl

@[simp] theorem closeState_params (s : State) : (closeState s).params = s.params := rfl
@[simp] theorem closeState_header (s : State) : (closeState s).header = s.header := rfl
@[simp] theorem closeState_draw (s : State) : (closeState s).draw = s.draw := rfl
@[simp] theorem closeState_isOpen (s : State) : (closeState s).isOpen = false := rfl
@[simp] theorem closeState_err (s : State) : (closeState s).err = s.err := rfl
@[simp] theorem closeState_derived (s : State) : (closeState s).derived = .closed := rfl
@[simp] theorem closeState_pal (s : State) : (closeState s).pal = s.pal := rfl
@[simp] theorem closeState_rb (s : State) : (closeState s).rb = s.rb := rfl
@[simp] theorem closeState_epoch (s : State) : (closeState s).epoch = s.epoch := rfl
@[simp] theorem closeState_cmds (s : State) : (closeState s).cmds = s.cmds := rfl
@[simp] theorem closeState_rspReady (s : State) : (closeState s).rspReady = s.rspReady := rfl
@[simp] theorem closeState_rsp (s : State) : (closeState s).rsp = s.rsp := rfl
@[simp] theorem closeState_sink (s : State) : (closeState s).sink = s.sink := rfl
@[simp] theorem closeState_job (s : State) : (closeState s).job = s.job := rfl
@[simp] theorem closeState_rst (s : State) : (closeState s).rst = s.rst := rfl
@[simp] theorem closeState_records (s : State) : (closeState s).records = s.records := rfl
@[simp] theorem closeState_responses (s : State) : (closeState s).responses = s.responses := rfl

@[simp] theorem setPalWord_params (i : Byte) (v : Word) (s : State) : (setPalWord i v s).params = s.params := rfl
@[simp] theorem setPalWord_header (i : Byte) (v : Word) (s : State) : (setPalWord i v s).header = s.header := rfl
@[simp] theorem setPalWord_draw (i : Byte) (v : Word) (s : State) : (setPalWord i v s).draw = s.draw := rfl
@[simp] theorem setPalWord_isOpen (i : Byte) (v : Word) (s : State) : (setPalWord i v s).isOpen = s.isOpen := rfl
@[simp] theorem setPalWord_err (i : Byte) (v : Word) (s : State) : (setPalWord i v s).err = s.err := rfl
@[simp] theorem setPalWord_derived (i : Byte) (v : Word) (s : State) : (setPalWord i v s).derived = s.derived := rfl
@[simp] theorem setPalWord_pal (i : Byte) (v : Word) (s : State) : (setPalWord i v s).pal = Ram.set s.pal i.toNat v := rfl
@[simp] theorem setPalWord_rb (i : Byte) (v : Word) (s : State) : (setPalWord i v s).rb = s.rb := rfl
@[simp] theorem setPalWord_epoch (i : Byte) (v : Word) (s : State) : (setPalWord i v s).epoch = s.epoch := rfl
@[simp] theorem setPalWord_cmds (i : Byte) (v : Word) (s : State) : (setPalWord i v s).cmds = s.cmds := rfl
@[simp] theorem setPalWord_rspReady (i : Byte) (v : Word) (s : State) : (setPalWord i v s).rspReady = s.rspReady := rfl
@[simp] theorem setPalWord_rsp (i : Byte) (v : Word) (s : State) : (setPalWord i v s).rsp = s.rsp := rfl
@[simp] theorem setPalWord_sink (i : Byte) (v : Word) (s : State) : (setPalWord i v s).sink = s.sink := rfl
@[simp] theorem setPalWord_job (i : Byte) (v : Word) (s : State) : (setPalWord i v s).job = s.job := rfl
@[simp] theorem setPalWord_rst (i : Byte) (v : Word) (s : State) : (setPalWord i v s).rst = s.rst := rfl
@[simp] theorem setPalWord_records (i : Byte) (v : Word) (s : State) : (setPalWord i v s).records = s.records := rfl
@[simp] theorem setPalWord_responses (i : Byte) (v : Word) (s : State) : (setPalWord i v s).responses = s.responses := rfl

@[simp] theorem memWriteWord_params (a : Nat) (v : Word) (s : State) : (memWriteWord a v s).params = s.params := rfl
@[simp] theorem memWriteWord_header (a : Nat) (v : Word) (s : State) : (memWriteWord a v s).header = s.header := rfl
@[simp] theorem memWriteWord_draw (a : Nat) (v : Word) (s : State) : (memWriteWord a v s).draw = s.draw := rfl
@[simp] theorem memWriteWord_isOpen (a : Nat) (v : Word) (s : State) : (memWriteWord a v s).isOpen = s.isOpen := rfl
@[simp] theorem memWriteWord_err (a : Nat) (v : Word) (s : State) : (memWriteWord a v s).err = s.err := rfl
@[simp] theorem memWriteWord_derived (a : Nat) (v : Word) (s : State) : (memWriteWord a v s).derived = s.derived := rfl
@[simp] theorem memWriteWord_pal (a : Nat) (v : Word) (s : State) : (memWriteWord a v s).pal = s.pal := rfl
@[simp] theorem memWriteWord_rb (a : Nat) (v : Word) (s : State) : (memWriteWord a v s).rb = s.rb.setBytes a (wordBytes v) := rfl
@[simp] theorem memWriteWord_epoch (a : Nat) (v : Word) (s : State) : (memWriteWord a v s).epoch = s.epoch := rfl
@[simp] theorem memWriteWord_cmds (a : Nat) (v : Word) (s : State) : (memWriteWord a v s).cmds = s.cmds := rfl
@[simp] theorem memWriteWord_rspReady (a : Nat) (v : Word) (s : State) : (memWriteWord a v s).rspReady = s.rspReady := rfl
@[simp] theorem memWriteWord_rsp (a : Nat) (v : Word) (s : State) : (memWriteWord a v s).rsp = s.rsp := rfl
@[simp] theorem memWriteWord_sink (a : Nat) (v : Word) (s : State) : (memWriteWord a v s).sink = s.sink := rfl
@[simp] theorem memWriteWord_job (a : Nat) (v : Word) (s : State) : (memWriteWord a v s).job = s.job := rfl
@[simp] theorem memWriteWord_rst (a : Nat) (v : Word) (s : State) : (memWriteWord a v s).rst = s.rst := rfl
@[simp] theorem memWriteWord_records (a : Nat) (v : Word) (s : State) : (memWriteWord a v s).records = s.records := rfl
@[simp] theorem memWriteWord_responses (a : Nat) (v : Word) (s : State) : (memWriteWord a v s).responses = s.responses := rfl

@[simp] theorem deliver_params (r : PixelRecord) (ready : SinkReady) (s : State) : (deliver r ready s).params = s.params := rfl
@[simp] theorem deliver_header (r : PixelRecord) (ready : SinkReady) (s : State) : (deliver r ready s).header = s.header := rfl
@[simp] theorem deliver_draw (r : PixelRecord) (ready : SinkReady) (s : State) : (deliver r ready s).draw = s.draw := rfl
@[simp] theorem deliver_isOpen (r : PixelRecord) (ready : SinkReady) (s : State) : (deliver r ready s).isOpen = s.isOpen := rfl
@[simp] theorem deliver_err (r : PixelRecord) (ready : SinkReady) (s : State) : (deliver r ready s).err = s.err := rfl
@[simp] theorem deliver_derived (r : PixelRecord) (ready : SinkReady) (s : State) : (deliver r ready s).derived = s.derived := rfl
@[simp] theorem deliver_pal (r : PixelRecord) (ready : SinkReady) (s : State) : (deliver r ready s).pal = s.pal := rfl
@[simp] theorem deliver_rb (r : PixelRecord) (ready : SinkReady) (s : State) : (deliver r ready s).rb = s.rb := rfl
@[simp] theorem deliver_epoch (r : PixelRecord) (ready : SinkReady) (s : State) : (deliver r ready s).epoch = s.epoch := rfl
@[simp] theorem deliver_cmds (r : PixelRecord) (ready : SinkReady) (s : State) : (deliver r ready s).cmds = s.cmds := rfl
@[simp] theorem deliver_rspReady (r : PixelRecord) (ready : SinkReady) (s : State) : (deliver r ready s).rspReady = s.rspReady := rfl
@[simp] theorem deliver_rsp (r : PixelRecord) (ready : SinkReady) (s : State) : (deliver r ready s).rsp = s.rsp := rfl
@[simp] theorem deliver_sink (r : PixelRecord) (ready : SinkReady) (s : State) : (deliver r ready s).sink = ready := rfl
@[simp] theorem deliver_job (r : PixelRecord) (ready : SinkReady) (s : State) : (deliver r ready s).job = s.job := rfl
@[simp] theorem deliver_rst (r : PixelRecord) (ready : SinkReady) (s : State) : (deliver r ready s).rst = s.rst := rfl
@[simp] theorem deliver_records (r : PixelRecord) (ready : SinkReady) (s : State) : (deliver r ready s).records = s.records ++ [r] := rfl
@[simp] theorem deliver_responses (r : PixelRecord) (ready : SinkReady) (s : State) : (deliver r ready s).responses = s.responses := rfl

@[simp] theorem holdRow_params (j : RowJob) (s : State) : (holdRow j s).params = s.params := rfl
@[simp] theorem holdRow_header (j : RowJob) (s : State) : (holdRow j s).header = s.header := rfl
@[simp] theorem holdRow_draw (j : RowJob) (s : State) : (holdRow j s).draw = s.draw := rfl
@[simp] theorem holdRow_isOpen (j : RowJob) (s : State) : (holdRow j s).isOpen = s.isOpen := rfl
@[simp] theorem holdRow_err (j : RowJob) (s : State) : (holdRow j s).err = s.err := rfl
@[simp] theorem holdRow_derived (j : RowJob) (s : State) : (holdRow j s).derived = s.derived := rfl
@[simp] theorem holdRow_pal (j : RowJob) (s : State) : (holdRow j s).pal = s.pal := rfl
@[simp] theorem holdRow_rb (j : RowJob) (s : State) : (holdRow j s).rb = s.rb := rfl
@[simp] theorem holdRow_epoch (j : RowJob) (s : State) : (holdRow j s).epoch = s.epoch := rfl
@[simp] theorem holdRow_cmds (j : RowJob) (s : State) : (holdRow j s).cmds = s.cmds := rfl
@[simp] theorem holdRow_rspReady (j : RowJob) (s : State) : (holdRow j s).rspReady = s.rspReady := rfl
@[simp] theorem holdRow_rsp (j : RowJob) (s : State) : (holdRow j s).rsp = s.rsp := rfl
@[simp] theorem holdRow_sink (j : RowJob) (s : State) : (holdRow j s).sink = s.sink := rfl
@[simp] theorem holdRow_job (j : RowJob) (s : State) : (holdRow j s).job = some j := rfl
@[simp] theorem holdRow_rst (j : RowJob) (s : State) : (holdRow j s).rst = s.rst := rfl
@[simp] theorem holdRow_records (j : RowJob) (s : State) : (holdRow j s).records = s.records := rfl
@[simp] theorem holdRow_responses (j : RowJob) (s : State) : (holdRow j s).responses = s.responses := rfl

@[simp] theorem releaseRow_params (s : State) : (releaseRow s).params = s.params := rfl
@[simp] theorem releaseRow_header (s : State) : (releaseRow s).header = s.header := rfl
@[simp] theorem releaseRow_draw (s : State) : (releaseRow s).draw = s.draw := rfl
@[simp] theorem releaseRow_isOpen (s : State) : (releaseRow s).isOpen = s.isOpen := rfl
@[simp] theorem releaseRow_err (s : State) : (releaseRow s).err = s.err := rfl
@[simp] theorem releaseRow_derived (s : State) : (releaseRow s).derived = s.derived := rfl
@[simp] theorem releaseRow_pal (s : State) : (releaseRow s).pal = s.pal := rfl
@[simp] theorem releaseRow_rb (s : State) : (releaseRow s).rb = s.rb := rfl
@[simp] theorem releaseRow_epoch (s : State) : (releaseRow s).epoch = s.epoch := rfl
@[simp] theorem releaseRow_cmds (s : State) : (releaseRow s).cmds = s.cmds := rfl
@[simp] theorem releaseRow_rspReady (s : State) : (releaseRow s).rspReady = s.rspReady := rfl
@[simp] theorem releaseRow_rsp (s : State) : (releaseRow s).rsp = s.rsp := rfl
@[simp] theorem releaseRow_sink (s : State) : (releaseRow s).sink = s.sink := rfl
@[simp] theorem releaseRow_job (s : State) : (releaseRow s).job = none := rfl
@[simp] theorem releaseRow_rst (s : State) : (releaseRow s).rst = s.rst := rfl
@[simp] theorem releaseRow_records (s : State) : (releaseRow s).records = s.records := rfl
@[simp] theorem releaseRow_responses (s : State) : (releaseRow s).responses = s.responses := rfl

@[simp] theorem takeResponse_params (r : Response) (s : State) : (takeResponse r s).params = s.params := rfl
@[simp] theorem takeResponse_header (r : Response) (s : State) : (takeResponse r s).header = s.header := rfl
@[simp] theorem takeResponse_draw (r : Response) (s : State) : (takeResponse r s).draw = s.draw := rfl
@[simp] theorem takeResponse_isOpen (r : Response) (s : State) : (takeResponse r s).isOpen = s.isOpen := rfl
@[simp] theorem takeResponse_err (r : Response) (s : State) : (takeResponse r s).err = s.err := rfl
@[simp] theorem takeResponse_derived (r : Response) (s : State) : (takeResponse r s).derived = s.derived := rfl
@[simp] theorem takeResponse_pal (r : Response) (s : State) : (takeResponse r s).pal = s.pal := rfl
@[simp] theorem takeResponse_rb (r : Response) (s : State) : (takeResponse r s).rb = s.rb := rfl
@[simp] theorem takeResponse_epoch (r : Response) (s : State) : (takeResponse r s).epoch = s.epoch := rfl
@[simp] theorem takeResponse_cmds (r : Response) (s : State) : (takeResponse r s).cmds = s.cmds := rfl
@[simp] theorem takeResponse_rspReady (r : Response) (s : State) : (takeResponse r s).rspReady = s.rspReady := rfl
@[simp] theorem takeResponse_rsp (r : Response) (s : State) : (takeResponse r s).rsp = none := rfl
@[simp] theorem takeResponse_sink (r : Response) (s : State) : (takeResponse r s).sink = s.sink := rfl
@[simp] theorem takeResponse_job (r : Response) (s : State) : (takeResponse r s).job = s.job := rfl
@[simp] theorem takeResponse_rst (r : Response) (s : State) : (takeResponse r s).rst = s.rst := rfl
@[simp] theorem takeResponse_records (r : Response) (s : State) : (takeResponse r s).records = s.records := rfl
@[simp] theorem takeResponse_responses (r : Response) (s : State) : (takeResponse r s).responses = s.responses ++ [r] := rfl

@[simp] theorem acceptCommand_params (rest : List Command) (s : State) : (acceptCommand rest s).params = s.params := rfl
@[simp] theorem acceptCommand_header (rest : List Command) (s : State) : (acceptCommand rest s).header = s.header := rfl
@[simp] theorem acceptCommand_draw (rest : List Command) (s : State) : (acceptCommand rest s).draw = s.draw := rfl
@[simp] theorem acceptCommand_isOpen (rest : List Command) (s : State) : (acceptCommand rest s).isOpen = s.isOpen := rfl
@[simp] theorem acceptCommand_err (rest : List Command) (s : State) : (acceptCommand rest s).err = s.err := rfl
@[simp] theorem acceptCommand_derived (rest : List Command) (s : State) : (acceptCommand rest s).derived = s.derived := rfl
@[simp] theorem acceptCommand_pal (rest : List Command) (s : State) : (acceptCommand rest s).pal = s.pal := rfl
@[simp] theorem acceptCommand_rb (rest : List Command) (s : State) : (acceptCommand rest s).rb = s.rb := rfl
@[simp] theorem acceptCommand_epoch (rest : List Command) (s : State) : (acceptCommand rest s).epoch = s.epoch := rfl
@[simp] theorem acceptCommand_cmds (rest : List Command) (s : State) : (acceptCommand rest s).cmds = rest := rfl
@[simp] theorem acceptCommand_rspReady (rest : List Command) (s : State) : (acceptCommand rest s).rspReady = s.rspReady := rfl
@[simp] theorem acceptCommand_rsp (rest : List Command) (s : State) : (acceptCommand rest s).rsp = s.rsp := rfl
@[simp] theorem acceptCommand_sink (rest : List Command) (s : State) : (acceptCommand rest s).sink = s.sink := rfl
@[simp] theorem acceptCommand_job (rest : List Command) (s : State) : (acceptCommand rest s).job = s.job := rfl
@[simp] theorem acceptCommand_rst (rest : List Command) (s : State) : (acceptCommand rest s).rst = s.rst := rfl
@[simp] theorem acceptCommand_records (rest : List Command) (s : State) : (acceptCommand rest s).records = s.records := rfl
@[simp] theorem acceptCommand_responses (rest : List Command) (s : State) : (acceptCommand rest s).responses = s.responses := rfl

@[simp] theorem assertReset_params (s : State) : (assertReset s).params = s.params := rfl
@[simp] theorem assertReset_header (s : State) : (assertReset s).header = .reset := rfl
@[simp] theorem assertReset_draw (s : State) : (assertReset s).draw = .reset := rfl
@[simp] theorem assertReset_isOpen (s : State) : (assertReset s).isOpen = false := rfl
@[simp] theorem assertReset_err (s : State) : (assertReset s).err = 0 := rfl
@[simp] theorem assertReset_derived (s : State) : (assertReset s).derived = .closed := rfl
@[simp] theorem assertReset_pal (s : State) : (assertReset s).pal = [] := rfl
@[simp] theorem assertReset_rb (s : State) : (assertReset s).rb = [] := rfl
@[simp] theorem assertReset_epoch (s : State) : (assertReset s).epoch = s.epoch + 1 := rfl
@[simp] theorem assertReset_cmds (s : State) : (assertReset s).cmds = s.cmds := rfl
@[simp] theorem assertReset_rspReady (s : State) : (assertReset s).rspReady = s.rspReady := rfl
@[simp] theorem assertReset_rsp (s : State) : (assertReset s).rsp = none := rfl
@[simp] theorem assertReset_sink (s : State) : (assertReset s).sink = s.sink := rfl
@[simp] theorem assertReset_job (s : State) : (assertReset s).job = none := rfl
@[simp] theorem assertReset_rst (s : State) : (assertReset s).rst = false := rfl
@[simp] theorem assertReset_records (s : State) : (assertReset s).records = s.records := rfl
@[simp] theorem assertReset_responses (s : State) : (assertReset s).responses = s.responses := rfl

@[simp] theorem writeReg_params (r : Reg) (v : Word) (s : State) : (writeReg r v s).params = s.params := by
  cases r <;> rfl
@[simp] theorem writeReg_isOpen (r : Reg) (v : Word) (s : State) : (writeReg r v s).isOpen = s.isOpen := by
  cases r <;> rfl
@[simp] theorem writeReg_err (r : Reg) (v : Word) (s : State) : (writeReg r v s).err = s.err := by
  cases r <;> rfl
@[simp] theorem writeReg_derived (r : Reg) (v : Word) (s : State) : (writeReg r v s).derived = s.derived := by
  cases r <;> rfl
@[simp] theorem writeReg_pal (r : Reg) (v : Word) (s : State) : (writeReg r v s).pal = s.pal := by
  cases r <;> rfl
@[simp] theorem writeReg_rb (r : Reg) (v : Word) (s : State) : (writeReg r v s).rb = s.rb := by
  cases r <;> rfl
@[simp] theorem writeReg_epoch (r : Reg) (v : Word) (s : State) : (writeReg r v s).epoch = s.epoch := by
  cases r <;> rfl
@[simp] theorem writeReg_cmds (r : Reg) (v : Word) (s : State) : (writeReg r v s).cmds = s.cmds := by
  cases r <;> rfl
@[simp] theorem writeReg_rspReady (r : Reg) (v : Word) (s : State) : (writeReg r v s).rspReady = s.rspReady := by
  cases r <;> rfl
@[simp] theorem writeReg_rsp (r : Reg) (v : Word) (s : State) : (writeReg r v s).rsp = s.rsp := by
  cases r <;> rfl
@[simp] theorem writeReg_sink (r : Reg) (v : Word) (s : State) : (writeReg r v s).sink = s.sink := by
  cases r <;> rfl
@[simp] theorem writeReg_job (r : Reg) (v : Word) (s : State) : (writeReg r v s).job = s.job := by
  cases r <;> rfl
@[simp] theorem writeReg_rst (r : Reg) (v : Word) (s : State) : (writeReg r v s).rst = s.rst := by
  cases r <;> rfl
@[simp] theorem writeReg_records (r : Reg) (v : Word) (s : State) : (writeReg r v s).records = s.records := by
  cases r <;> rfl
@[simp] theorem writeReg_responses (r : Reg) (v : Word) (s : State) : (writeReg r v s).responses = s.responses := by
  cases r <;> rfl

end Sys2Proof.Machine
end

