-- ==== Sys2Proof/Laws/Ops.lean ====
section
/-! SUPPORT. Registers, the status word, both RAMs and the error operations: what each read gives after each write. -/

namespace Sys2Proof.Machine

open Sys2Proof

theorem errAfter_eq (err : BitVec 4) (e : ErrorKind) : stickyErr err e = Spec.errAfter err e.code := rfl

theorem code_ne_zero (e : ErrorKind) : e.code ≠ 0 := by cases e <;> decide

theorem code_legal (e : ErrorKind) (h : e ≠ .truncatedData) : legalErr e.code := by
  cases e <;> first | (exact absurd rfl h) | decide

theorem sticky_legal {err : BitVec 4} {e : ErrorKind} (h : e ≠ .truncatedData) (he : legalErr err) : legalErr (stickyErr err e) := by
  unfold stickyErr; split
  · exact code_legal e h
  · exact he

theorem Reg.ofSel_sel (r : Reg) : Reg.ofSel r.sel = some r := by cases r <;> rfl

theorem Reg.sel_of_ofSel {b : Byte} {r : Reg} (h : Reg.ofSel b = some r) : r.sel = b := by
  revert b; cases r <;> decide

/-- Group by selector number. -/
theorem Reg.group_of_sel : ∀ b : Byte, (Reg.ofSel b).map Reg.group =
    if b.toNat ≤ 0x09 then some .header else if b.toNat ≤ 0x0C then some .draw
    else if b.toNat ≤ 0x0F then none else if b.toNat ≤ 0x1C then some .derived else none := by decide

theorem Reg.ofSel_cases : ∀ b : Byte, match Reg.ofSel b with
    | none => (0x0D ≤ b.toNat ∧ b.toNat ≤ 0x0F) ∨ 0x1D ≤ b.toNat
    | some r => match r.group with
      | .header => b.toNat ≤ 9
      | .draw => 0x0A ≤ b.toNat ∧ b.toNat ≤ 0x0C
      | .derived => 0x10 ≤ b.toNat ∧ b.toNat ≤ 0x1C := by
  intro b
  have h := Reg.group_of_sel b
  split <;> rename_i hr <;> rw [hr] at h
  · simp only [Option.map_none] at h; split_ifs at h <;> omega
  · simp only [Option.map_some] at h
    split <;> rename_i hg <;> rw [hg] at h <;> split_ifs at h <;> simp_all <;> omega

theorem header_sel (r : Reg) : r.group = .header → r.sel.toNat ≤ 9 := by cases r <;> decide

theorem draw_sel (r : Reg) : r.group = .draw → 10 ≤ r.sel.toNat := by cases r <;> decide

theorem statusWord_eq (s : State) : statusWord s = BitVec.ofNat 32 (256 * s.err.toNat + s.isOpen.toNat) := by
  have h : ∀ (e : BitVec 4) (b : Bool), (e.setWidth 32 <<< 8) ||| (BitVec.ofBool b).setWidth 32 = BitVec.ofNat 32 (256 * e.toNat + b.toNat) := by decide
  exact h _ _

theorem setWidth_up (c : BitVec 16) : c.setWidth 32 = BitVec.ofNat 32 c.toNat := color_setWidth c

theorem setWidth_down (v : Word) : v.setWidth 16 = BitVec.ofNat 16 v.toNat := by
  apply BitVec.eq_of_toNat_eq; simp

theorem writeReg_eq (r : Reg) (v : Word) (s : State) :
    writeReg r v s = { s with header := (writeReg r v s).header, draw := (writeReg r v s).draw } := by
  cases r <;> rfl

theorem readReg_writeReg_other (s : State) {r q : Reg} (v : Word) (hq : r ≠ q) :
    readReg (writeReg q v s) r = readReg s r := by
  cases r <;> cases q <;> first | rfl | exact absurd rfl hq

theorem readReg_closeState (s : State) {r : Reg} (hg : r.group ≠ .derived) :
    readReg (closeState s) r = readReg s r := by
  cases r <;> first | rfl | exact absurd rfl hg

theorem readReg_raise (s : State) {r : Reg} (hg : r.group ≠ .derived) (e d) :
    readReg (raiseError e d s) r = readReg s r := by
  cases r <;> first | rfl | exact absurd rfl hg

theorem readReg_succeed (s : State) (r : Reg) (d) :
    readReg (succeed d s) r = readReg s r := by
  cases r <;> rfl

theorem palWord_setPalWord_same (s : State) (i : Byte) (v : Word) : palWord (setPalWord i v s) i = v := by
  simp [palWord]

theorem palWord_setPalWord_other (s : State) {i j : Byte} (v : Word) (h : j ≠ i) : palWord (setPalWord i v s) j = palWord s j := by
  have : j.toNat ≠ i.toNat := fun e => h (BitVec.eq_of_toNat_eq e)
  simp [palWord, Ram.get_set_other _ _ this]

theorem byteAt_memWriteWord_other (s : State) {a b : Nat} (v : Word) (h : b < a ∨ a + 4 ≤ b) :
    byteAt (memWriteWord a v s) b = byteAt s b := by
  simp [byteAt, Memory.get_setBytes_other s.rb a (wordBytes v) h]

theorem byteAt_memWriteWord (s : State) (a : Nat) (v : Word) {k : Nat} (h : k < 4) :
    byteAt (memWriteWord a v s) (a + k) = byteOf v k := by
  have := Memory.get_setBytes s.rb a (wordBytes v) (k := k) h
  simp only [byteAt, memWriteWord_rb, this, Option.getD_some]
  match k, h with
  | 0, _ => rfl
  | 1, _ => rfl
  | 2, _ => rfl
  | 3, _ => rfl

theorem memRead_four (s : State) (a : Nat) : memRead s a 4 = (byteAt s a).toNat + 256 * (byteAt s (a + 1)).toNat
        + 65536 * (byteAt s (a + 2)).toNat + 16777216 * (byteAt s (a + 3)).toNat := by
  have : List.range 4 = [0,1,2,3] := rfl
  simp only [memRead, this, List.map, leValue, Nat.add_zero]
  omega

theorem memRead_two (s : State) (a : Nat) : memRead s a 2 = (byteAt s a).toNat + 256 * (byteAt s (a + 1)).toNat := by
  have : List.range 2 = [0,1] := rfl
  simp only [memRead, this, List.map, leValue, Nat.add_zero]
  omega

/-- A stored word reads back (R61). -/
theorem memRead_memWriteWord (s : State) (a : Nat) (v : Word) : memRead (memWriteWord a v s) a 4 = v.toNat := by
  rw [memRead_four]
  have h0 := byteAt_memWriteWord s a v (k := 0) (by omega)
  have h1 := byteAt_memWriteWord s a v (k := 1) (by omega)
  have h2 := byteAt_memWriteWord s a v (k := 2) (by omega)
  have h3 := byteAt_memWriteWord s a v (k := 3) (by omega)
  rw [Nat.add_zero] at h0
  rw [h0, h1, h2, h3]
  simp only [byteOf_toNat]
  have := v.isLt
  omega

theorem wordAddrOk_iff (s : State) (a : BitVec 16) : wordAddrOk s a = true ↔ a.toNat % 4 = 0 ∧ a.toNat + 4 ≤ s.params.rowbufBytes := by
  simp [wordAddrOk]

/-- PAL_WRITE's store keeps the palette's canonical form (R41). -/
theorem setPalWord_wf (i : Byte) (v : Word) {s : State} (h : Palette.wf s.pal) : Palette.wf (setPalWord i v s).pal :=
  Ram.set_wf v h i.isLt

/-- ROWBUF_WRITE's store keeps the row buffer's canonical form and bound (R43, R63). -/
theorem memWriteWord_wf {s : State} {addr : BitVec 16} (v : Word) (h : Memory.wf s.params.rowbufBytes s.rb)
    (ok : wordAddrOk s addr = true) : Memory.wf s.params.rowbufBytes (memWriteWord addr.toNat v s).rb :=
  Memory.setBytes_wf h ((wordAddrOk_iff s addr).1 ok).2

/-- Asserting reset leaves both RAMs in canonical form (R230). -/
theorem assertReset_wf (s : State) : Memory.wf s.params.rowbufBytes (assertReset s).rb ∧ Palette.wf (assertReset s).pal :=
  ⟨⟨List.Pairwise.nil, by simp⟩, ⟨List.Pairwise.nil, by simp⟩⟩

/-- Both RAMs are in canonical form after reset, for any parameters (R230). -/
theorem resetWith_wf (p : Params) :
    Memory.wf p.rowbufBytes (State.resetWith p).rb ∧ Palette.wf (State.resetWith p).pal :=
  ⟨⟨List.Pairwise.nil, by simp [State.resetWith]⟩, ⟨List.Pairwise.nil, by simp [State.resetWith]⟩⟩

end Sys2Proof.Machine
end

