-- ==== Sys2Proof/Laws/Geometry.lean ====
section
/-! SUPPORT. The stride, the row offset, the mask shifts, and everything the checks of OPEN can answer. -/

namespace Sys2Proof.Machine

open Sys2Proof

/-- The stride of R130, as the spec writes it. -/
theorem stride_words (bpp w : Nat) : stride bpp w = Spec.strideBytes bpp w := by
  unfold stride Spec.strideBytes; omega

theorem rowOffset_eq {po imgH st row : Word} (h : row.toNat < imgH.toNat) : rowOffset po imgH st row = po + (imgH - row - 1) * st := by
  apply BitVec.eq_of_toNat_eq
  have e : (imgH - row - 1).toNat = imgH.toNat - row.toNat - 1 := by
    have := imgH.isLt; have := row.isLt
    rw [BitVec.toNat_sub, BitVec.toNat_sub]; simp; omega
  rw [rowOffset, fileRow, BitVec.toNat_ofNat, BitVec.toNat_add, BitVec.toNat_mul, e]
  simp

/-- The count stops at the lowest set bit (R150). -/
theorem trailingZeros_spec (n : Nat) (m : Word) (h : ∃ k, k < n ∧ m.getLsbD k = true) :
    trailingZeros n m < n ∧ Spec.IsLowestSetBit m (trailingZeros n m) := by
  induction n generalizing m with
  | zero => obtain ⟨k, hk, -⟩ := h; omega
  | succ n ih =>
    unfold trailingZeros
    by_cases h0 : m.getLsbD 0 = true
    · rw [if_pos h0]; exact ⟨by omega, h0, fun k hk => by omega⟩
    · rw [if_neg h0]
      obtain ⟨k, hk, hb⟩ := h
      have : k ≠ 0 := by rintro rfl; exact h0 hb
      obtain ⟨i1, i2, i3⟩ := ih (m >>> 1) ⟨k - 1, by omega, by
        rw [BitVec.getLsbD_ushiftRight, show 1 + (k-1) = k by omega]; exact hb⟩
      refine ⟨by omega, ?_, ?_⟩
      · rw [BitVec.getLsbD_ushiftRight] at i2; rw [Nat.add_comm]; exact i2
      · intro j hj
        cases j with
        | zero => exact Bool.eq_false_iff.2 h0
        | succ j =>
          have := i3 j (by omega)
          rw [BitVec.getLsbD_ushiftRight] at this; rw [Nat.add_comm]; exact this

theorem exists_bit {m : Word} (h : m ≠ 0) : ∃ k, k < 32 ∧ m.getLsbD k = true := by
  by_contra hc
  push Not at hc
  apply h
  apply BitVec.eq_of_getLsbD_eq
  intro i hi
  simpa using hc i hi

theorem shiftOfMask_ok {m : Word} (h : m ≠ 0) : ∃ n, n < 32 ∧ Spec.IsLowestSetBit m n ∧ shiftOfMask m = .ok (BitVec.ofNat 32 n) := by
  obtain ⟨h1, h2⟩ := trailingZeros_spec 32 m (exists_bit h)
  exact ⟨_, h1, h2, by rw [shiftOfMask, if_neg h]⟩

theorem s32_neg (v : Word) : s32 v < 0 ↔ 2 ^ 31 ≤ v.toNat := by
  have := v.isLt
  rw [s32, BitVec.toInt_eq_toNat_cond]
  split <;> omega

theorem supportedDepth_iff (n : Nat) : supportedDepth n = true ↔ n ∈ [1, 4, 8, 16, 24, 32] := by
  rw [supportedDepth, List.contains_iff_mem]

theorem word_ne_iff (v : Word) (n : Nat) (hn : n < 2^32) : v ≠ BitVec.ofNat 32 n ↔ v.toNat ≠ n := by
  rw [Ne, ← BitVec.toNat_inj, BitVec.toNat_ofNat, Nat.mod_eq_of_lt hn]

theorem shiftsOfMasks_zero {m : Channels} (h : m.r = 0 ∨ m.g = 0 ∨ m.b = 0 ∨ m.a = 0) :
    shiftsOfMasks m = .error .invalidFormat := by
  have hz : ∀ v : Word, shiftOfMask v = .error .invalidFormat ∨ ∃ n, shiftOfMask v = .ok n := by
    intro v; unfold shiftOfMask; split
    · exact .inl rfl
    · exact .inr ⟨_, rfl⟩
  have h0 : shiftOfMask 0 = .error .invalidFormat := rfl
  unfold shiftsOfMasks
  rcases hz m.r with h1 | ⟨_, h1⟩ <;> rcases hz m.g with h2 | ⟨_, h2⟩ <;> rcases hz m.b with h3 | ⟨_, h3⟩ <;>
    rcases hz m.a with h4 | ⟨_, h4⟩ <;> simp only [h1, h2, h3, h4]
  rcases h with h | h | h | h <;> simp_all

theorem shiftsOfMasks_ok {m : Channels} (h : ¬(m.r = 0 ∨ m.g = 0 ∨ m.b = 0 ∨ m.a = 0)) :
    ∃ k : Channels, shiftsOfMasks m = .ok k ∧ 
     (k.r.toNat < 32 ∧ Spec.IsLowestSetBit m.r k.r.toNat) ∧ (k.g.toNat < 32 ∧ Spec.IsLowestSetBit m.g k.g.toNat) ∧
     (k.b.toNat < 32 ∧ Spec.IsLowestSetBit m.b k.b.toNat) ∧ (k.a.toNat < 32 ∧ Spec.IsLowestSetBit m.a k.a.toNat) := by
  simp only [not_or] at h
  obtain ⟨r, r1, r2, r3⟩ := shiftOfMask_ok h.1
  obtain ⟨g, g1, g2, g3⟩ := shiftOfMask_ok h.2.1
  obtain ⟨b, b1, b2, b3⟩ := shiftOfMask_ok h.2.2.1
  obtain ⟨a, a1, a2, a3⟩ := shiftOfMask_ok h.2.2.2
  have e : ∀ n, n < 32 → (BitVec.ofNat 32 n).toNat = n := fun n hn => by simp; omega
  refine ⟨⟨BitVec.ofNat 32 r, BitVec.ofNat 32 g, BitVec.ofNat 32 b, BitVec.ofNat 32 a⟩,
    by simp only [shiftsOfMasks, r3, g3, b3, a3], ?_⟩
  dsimp only
  rw [e r r1, e g g1, e b b1, e a a1]
  exact ⟨⟨r1, r2⟩, ⟨g1, g2⟩, ⟨b1, b2⟩, ⟨a1, a2⟩⟩

/-- What a successful `deriveRegs` gives. -/
def DerivedOk (p : Params) (h : HeaderRegs) (d : DerivedRegs) : Prop :=
  h.bpp.toNat ∈ [1,4,8,16,24,32] ∧ h.width.toNat < 2^31 ∧ h.height.toNat < 2^31 ∧
  stride h.bpp.toNat h.width.toNat ≤ p.rowbufBytes ∧
      d.imgW = h.width ∧ d.imgH = h.height ∧
      d.stride = BitVec.ofNat 32 (stride h.bpp.toNat h.width.toNat) ∧
      (16 ≤ h.bpp.toNat → d.palSize = 0) ∧
      (h.bpp.toNat < 16 → h.colorsUsed ≠ 0 → d.palSize = h.colorsUsed ∧ h.colorsUsed.toNat ≤ 256) ∧
      (h.bpp.toNat < 16 → h.colorsUsed = 0 → d.palSize.toNat = 2 ^ h.bpp.toNat) ∧
      (h.bpp.toNat = 32 ∧ h.compression.toNat = 3 →
        d.emask = h.mask ∧ 
     (d.shift.r.toNat < 32 ∧ Spec.IsLowestSetBit h.mask.r d.shift.r.toNat) ∧ (d.shift.g.toNat < 32 ∧ Spec.IsLowestSetBit h.mask.g d.shift.g.toNat) ∧
     (d.shift.b.toNat < 32 ∧ Spec.IsLowestSetBit h.mask.b d.shift.b.toNat) ∧ (d.shift.a.toNat < 32 ∧ Spec.IsLowestSetBit h.mask.a d.shift.a.toNat)) ∧
      (¬(h.bpp.toNat = 32 ∧ h.compression.toNat = 3) →
        d.emask = ⟨0x00FF0000, 0x0000FF00, 0x000000FF, 0xFF000000⟩ ∧ d.shift = ⟨16, 8, 0, 24⟩)

/-- Everything the checks of OPEN can answer (R106). -/
theorem deriveRegs_spec (p : Params) (h : HeaderRegs) :
    match Spec.openError p h with
    | some code => ∃ e, e ≠ .truncatedData ∧ deriveRegs p h = .error e ∧ e.code = code
    | none => ∃ d, deriveRegs p h = .ok d ∧ DerivedOk p h d := by
  have c0 := word_ne_iff h.compression 0 (by omega)
  have c3 := word_ne_iff h.compression 3 (by omega)
  unfold Spec.openError deriveRegs
  by_cases h1 : ¬(h.compression.toNat = 0 ∨ h.compression.toNat = 3)
  · have k1 : h.compression ≠ 0 ∧ h.compression ≠ 3 := by rw [not_or] at h1; exact ⟨c0.2 h1.1, c3.2 h1.2⟩
    rw [if_pos h1, if_pos k1]
    exact ⟨.unsupportedFormat, by decide, rfl, rfl⟩
  have k1 : ¬(h.compression ≠ 0 ∧ h.compression ≠ 3) := by
    rintro ⟨a, b⟩; exact h1 (not_or.2 ⟨c0.1 a, c3.1 b⟩)
  rw [if_neg h1, if_neg k1]
  by_cases h2 : h.bpp.toNat ∉ [1, 4, 8, 16, 24, 32]
  · have k2 : ¬supportedDepth h.bpp.toNat = true := by rw [supportedDepth_iff]; exact h2
    rw [if_pos h2, if_pos k2]
    exact ⟨.unsupportedFormat, by decide, rfl, rfl⟩
  have k2 : ¬¬supportedDepth h.bpp.toNat = true := by rw [supportedDepth_iff]; exact h2
  rw [if_neg h2, if_neg k2]
  by_cases h3 : 2 ^ 31 ≤ h.height.toNat
  · rw [if_pos h3, if_pos ((s32_neg _).2 h3)]
    exact ⟨.unsupportedFormat, by decide, rfl, rfl⟩
  have k3 : ¬s32 h.height < 0 := fun x => h3 ((s32_neg _).1 x)
  rw [if_neg h3, if_neg k3]
  by_cases h4 : 2 ^ 31 ≤ h.width.toNat
  · rw [if_pos h4, if_pos ((s32_neg _).2 h4)]
    exact ⟨.invalidFormat, by decide, rfl, rfl⟩
  have k4 : ¬s32 h.width < 0 := fun x => h4 ((s32_neg _).1 x)
  rw [if_neg h4, if_neg k4]
  rw [not_not] at h2
  have hp : ∀ n, n ∈ [1, 4, 8, 16, 24, 32] → n < 16 → 1 ≤ 2 ^ n ∧ 2 ^ n ≤ 256 := by decide
  have hz : h.colorsUsed = 0 ↔ h.colorsUsed.toNat = 0 := by rw [← BitVec.toNat_inj]; rfl
  have hps : h.bpp.toNat < 16 ∧ 256 < paletteSize h ↔ h.bpp.toNat < 16 ∧ 256 < h.colorsUsed.toNat := by
    unfold paletteSize
    constructor
    · rintro ⟨a, b⟩
      have := hp _ h2 a
      split at b <;> omega
    · rintro ⟨a, b⟩
      rw [if_neg (by rw [hz]; omega)]; exact ⟨a, b⟩
  by_cases h5 : h.bpp.toNat < 16 ∧ 256 < h.colorsUsed.toNat
  · rw [if_pos h5, if_pos (hps.2 h5)]
    exact ⟨.invalidFormat, by decide, rfl, rfl⟩
  have k5 : ¬(h.bpp.toNat < 16 ∧ 256 < paletteSize h) := fun x => h5 (hps.1 x)
  rw [if_neg h5, if_neg k5]
  have hb : h.bpp = 32 ↔ h.bpp.toNat = 32 := by rw [← BitVec.toNat_inj]; rfl
  have hc3 : h.compression = 3 ↔ h.compression.toNat = 3 := by rw [← BitVec.toNat_inj]; rfl
  have hem : 
     (h.bpp.toNat = 32 ∧ h.compression.toNat = 3 ∧ (h.mask.r = 0 ∨ h.mask.g = 0 ∨ h.mask.b = 0 ∨ h.mask.a = 0) → effectiveMasks h = .error .invalidFormat) ∧
     (¬(h.bpp.toNat = 32 ∧ h.compression.toNat = 3 ∧ (h.mask.r = 0 ∨ h.mask.g = 0 ∨ h.mask.b = 0 ∨ h.mask.a = 0)) → ∃ k m, effectiveMasks h = .ok (k, m) ∧
      (h.bpp.toNat = 32 ∧ h.compression.toNat = 3 →
        m = h.mask ∧ 
     (k.r.toNat < 32 ∧ Spec.IsLowestSetBit h.mask.r k.r.toNat) ∧ (k.g.toNat < 32 ∧ Spec.IsLowestSetBit h.mask.g k.g.toNat) ∧
     (k.b.toNat < 32 ∧ Spec.IsLowestSetBit h.mask.b k.b.toNat) ∧ (k.a.toNat < 32 ∧ Spec.IsLowestSetBit h.mask.a k.a.toNat)) ∧
      (¬(h.bpp.toNat = 32 ∧ h.compression.toNat = 3) →
        m = ⟨0x00FF0000, 0x0000FF00, 0x000000FF, 0xFF000000⟩ ∧ k = ⟨16, 8, 0, 24⟩)) := by
    simp only [effectiveMasks, hb, hc3]
    constructor
    · rintro ⟨a, b, c⟩
      rw [if_pos ⟨a, b⟩, shiftsOfMasks_zero c]
    · intro hn
      by_cases hm : h.bpp.toNat = 32 ∧ h.compression.toNat = 3
      · obtain ⟨k, hk, hs⟩ := shiftsOfMasks_ok (m := h.mask) (fun c => hn ⟨hm.1, hm.2, c⟩)
        rw [if_pos hm, hk]
        exact ⟨k, h.mask, rfl, fun _ => ⟨rfl, hs⟩, fun x => absurd hm x⟩
      · rw [if_neg hm]
        exact ⟨_, _, rfl, fun x => absurd x hm, fun _ => ⟨rfl, rfl⟩⟩
  obtain ⟨em1, em2⟩ := hem
  by_cases h6 : h.bpp.toNat = 32 ∧ h.compression.toNat = 3 ∧ (h.mask.r = 0 ∨ h.mask.g = 0 ∨ h.mask.b = 0 ∨ h.mask.a = 0)
  · rw [if_pos h6, em1 h6]
    exact ⟨.invalidFormat, by decide, rfl, rfl⟩
  rw [if_neg h6]
  obtain ⟨k, m, e1, e2, e3⟩ := em2 h6
  rw [e1]
  dsimp only
  rw [← stride_words]
  by_cases h7 : p.rowbufBytes < stride h.bpp.toNat h.width.toNat
  · rw [if_pos h7, if_pos h7]
    exact ⟨.capacity, by decide, rfl, rfl⟩
  rw [if_neg h7, if_neg h7]
  refine ⟨_, rfl, h2, by omega, by omega, by omega, rfl, rfl, rfl, ?_, ?_, ?_, e2, e3⟩
  · intro h16; exact if_neg (by omega)
  · intro h16 hcu
    replace hcu : h.colorsUsed.toNat ≠ 0 := fun x => hcu (hz.2 x)
    constructor
    · apply BitVec.eq_of_toNat_eq
      have := h.colorsUsed.isLt
      simp only [h16, if_true, paletteSize, if_neg (fun x => hcu (hz.1 x)), BitVec.toNat_ofNat]
      omega
    · exact Nat.le_of_not_lt (fun x => h5 ⟨h16, x⟩)
  · intro h16 hcu
    have := hp _ h2 h16
    simp only [h16, if_true, paletteSize, hcu, BitVec.toNat_ofNat]
    omega

theorem deriveRegs_ok {p : Params} {h : HeaderRegs} {d : DerivedRegs} (hd : deriveRegs p h = .ok d) : DerivedOk p h d := by
  have := deriveRegs_spec p h
  split at this
  · obtain ⟨e, -, h1, -⟩ := this; rw [hd] at h1; cases h1
  · obtain ⟨d', h1, h2⟩ := this; rw [hd] at h1; cases h1; exact h2

theorem deriveRegs_error {p : Params} {h : HeaderRegs} {e : ErrorKind} (hd : deriveRegs p h = .error e) : e ≠ .truncatedData := by
  have := deriveRegs_spec p h
  split at this
  · obtain ⟨e', h0, h1, -⟩ := this; rw [hd] at h1; cases h1; exact h0
  · obtain ⟨d', h1, h2⟩ := this; rw [hd] at h1; cases h1

end Sys2Proof.Machine
end

