-- ==== Sys2Proof/Laws/Pixels.lean ====
section
/-! SUPPORT. The unpackers, what a column's color depends on, and everything the row loop can do. -/

namespace Sys2Proof.Machine

open Sys2Proof

theorem decodeRow_closed {s : State} (row : Word) (h : s.isOpen = false) :
    exec (.decodeRow row) s = .next (succeed 0 s) := if_pos h

theorem decodeRow_range {s : State} {row : Word} (h : s.isOpen = true) (hr : s.derived.imgH.toNat ≤ row.toNat) :
    exec (.decodeRow row) s = .next (raiseError .range 0 s) := by
  show execDecodeRow row s = _
  rw [execDecodeRow, if_neg (by rw [h]; decide), if_pos hr]

theorem decodeRow_run {s : State} {row : Word} (h : s.isOpen = true) (hr : row.toNat < s.derived.imgH.toNat) :
    exec (.decodeRow row) s = runRow row s.derived.imgW.toNat 0 s := by
  show execDecodeRow row s = _
  rw [execDecodeRow, if_neg (by rw [h]; decide), if_neg (Nat.not_le.2 hr)]

theorem index1_toNat (s : State) (c : Nat) : (index1 s c).toNat = (byteAt s (c / 8)).toNat / 2 ^ (7 - c % 8) % 2 := by
  have h1 : (1 : Byte).toNat = 2 ^ 1 - 1 := rfl
  rw [index1, BitVec.toNat_and, BitVec.toNat_ushiftRight, h1, Nat.and_two_pow_sub_one_eq_mod, Nat.shiftRight_eq_div_pow]

theorem index4_toNat (s : State) (c : Nat) : (index4 s c).toNat =
    (if c % 2 = 0 then (byteAt s (c / 2)).toNat / 16 else (byteAt s (c / 2)).toNat % 16) := by
  have := (byteAt s (c / 2)).isLt
  unfold index4
  split <;> simp [BitVec.extractLsb'_toNat, Nat.shiftRight_eq_div_pow] <;> omega

/-- The lookup of an index below PAL_SIZE (R182). -/
theorem lookup_ok {s : State} {i : Byte} (h : i.toNat < s.derived.palSize.toNat) :
    lookupPalette s i = .ok (paletteColor s.params.paletteLayout (palWord s i)) := by
  rw [lookupPalette, if_neg (by omega)]

/-- The lookup of an index at or above PAL_SIZE (R182). -/
theorem lookup_error {s : State} {i : Byte} (h : s.derived.palSize.toNat ≤ i.toNat) :
    lookupPalette s i = .error .outOfRangeIndex := by
  rw [lookupPalette, if_pos h]

/-- The index of a column at 1, 4 or 8 bpp. -/
def columnIndex (s : State) (c : Nat) : Byte :=
  if s.header.bpp.toNat = 1 then index1 s c else if s.header.bpp.toNat = 4 then index4 s c else index8 s c

theorem columnIndex_toNat (s : State) (c : Nat) :
    (columnIndex s c).toNat = Spec.paletteIndex s s.header.bpp.toNat c := by
  unfold columnIndex Spec.paletteIndex
  split
  · exact index1_toNat s c
  · split
    · exact index4_toNat s c
    · rfl

theorem pixelColor_indexed {s : State} {c : Nat} (hb : s.header.bpp.toNat ∈ [1, 4, 8])
    (h : s.header.bpp.toNat * c / 8 < s.params.rowbufBytes) :
    pixelColor s c = match lookupPalette s (columnIndex s c) with
      | .ok v => .ok v
      | .error e => .error (.error e) := by
  unfold pixelColor columnIndex
  simp only [List.mem_cons, List.not_mem_nil, or_false] at hb
  rcases hb with e | e | e <;> rw [e] at h <;> simp only [e, ifInBuffer] <;> rw [if_pos (by omega)] <;> rfl

theorem extractChannel_eq (s : State) (c : Nat) (m k : Word) :
    extractChannel (BitVec.ofNat 32 (memRead s (4 * c) 4)) m k = Spec.channel (Spec.pixel32 s c) m k := by
  have h : (BitVec.ofNat 32 (memRead s (4 * c) 4)).toNat = Spec.pixel32 s c := by
    rw [BitVec.toNat_ofNat, memRead_four, Spec.pixel32]
    have := (byteAt s (4 * c)).isLt
    have := (byteAt s (4 * c + 1)).isLt
    have := (byteAt s (4 * c + 2)).isLt
    have := (byteAt s (4 * c + 3)).isLt
    omega
  apply BitVec.eq_of_toNat_eq
  rw [extractChannel, Spec.channel, BitVec.toNat_setWidth, BitVec.toNat_ushiftRight, BitVec.toNat_and, h,
    Nat.shiftRight_eq_div_pow, BitVec.toNat_ofNat]
  omega

/-- The only errors a column can have. -/
theorem pixelColor_error {s : State} {c : Nat} {e : ErrorKind} (h : pixelColor s c = .error (.error e)) :
    e = .outOfRangeIndex ∨ e = .unsupportedFormat := by
  have hl : ∀ i e, lookupPalette s i = .error e → e = .outOfRangeIndex := by
    intro i e h; unfold lookupPalette at h; split at h <;> cases h; rfl
  have key : ∀ off len i, ifInBuffer s off len (lookupPalette s i) = .error (.error e) → e = .outOfRangeIndex := by
    intro off len i h
    unfold ifInBuffer at h
    split at h
    · split at h
      · cases h
      · next e he => cases h; exact hl _ _ he
    · cases h
  have ok : ∀ off len v, ifInBuffer s off len (.ok v) ≠ .error (.error e) := by
    intro off len v; unfold ifInBuffer; split <;> simp
  unfold pixelColor at h
  split at h
  · exact .inl (key _ _ _ h)
  · exact .inl (key _ _ _ h)
  · exact .inl (key _ _ _ h)
  · exact absurd h (ok _ _ _)
  · exact absurd h (ok _ _ _)
  · exact absurd h (ok _ _ _)
  · cases h; exact .inr rfl

theorem ifInBuffer_ne {s : State} {off len : Nat} (x : Except ErrorKind Color) (h : off + len ≤ s.params.rowbufBytes) :
    ifInBuffer s off len x ≠ .error .noByte := by
  unfold ifInBuffer
  rw [if_pos h]
  cases x <;> simp

@[simp] theorem pixelColor_deliver (r : PixelRecord) (k : SinkReady) (s : State) (c : Nat) :
    pixelColor (deliver r k s) c = pixelColor s c := rfl

@[simp] theorem recordAt_deliver (r : PixelRecord) (k : SinkReady) (s : State) (row : Word) (c : Nat) (v : Color) :
    recordAt (deliver r k s) row c v = recordAt s row c v := rfl

theorem recordAt_eq (s : State) (row : Word) (c : Nat) (v : Color) : recordAt s row c v =
   ⟨BitVec.ofNat 32 (s.draw.originX.toNat + c), BitVec.ofNat 32 (s.draw.originY.toNat + row.toNat), v⟩ := by
  simp only [recordAt, PixelRecord.mk.injEq, and_true]
  constructor <;> apply BitVec.eq_of_toNat_eq <;> simp

theorem takes_succ {k : SinkReady} {n : Nat} (h : k.takes (n + 1) = true) :
    ∃ k', k.accept = some k' ∧ k'.takes n = true ∧ k.after (n + 1) = k'.after n := by
  cases k with
  | always => exact ⟨.always, rfl, rfl, rfl⟩
  | records m =>
    cases m with
    | zero => simp [SinkReady.takes] at h
    | succ m => exact ⟨.records m, rfl, by simpa [SinkReady.takes] using h, by simp [SinkReady.after]⟩

/-- `k` columns that all have a color, before a sink that takes them. -/
theorem runRow_emits (row : Word) (color : Nat → Color) (k n c : Nat) (s : State)
    (hc : ∀ d, d < k → pixelColor s (c + d) = .ok (color (c + d))) (hs : s.sink.takes k = true) :
    runRow row (k + n) c s =
      runRow row n (c + k) { s with
        records := s.records ++ (List.range k).map fun d => recordAt s row (c + d) (color (c + d))
        sink := s.sink.after k } := by
  induction k generalizing c s with
  | zero =>
    have : s.sink.after 0 = s.sink := by cases s.sink <;> rfl
    simp [this]
  | succ k ih =>
    obtain ⟨k', h1, h2, h3⟩ := takes_succ hs
    have h0 := hc 0 (by omega)
    rw [Nat.add_zero] at h0
    rw [show k + 1 + n = (k + n) + 1 by omega]
    simp only [runRow, h0, h1]
    rw [ih (c + 1) _ (fun d hd => by
      have := hc (d + 1) (by omega)
      rw [show c + (d + 1) = c + 1 + d by omega] at this
      rw [pixelColor_deliver]; exact this) (by simpa using h2)]
    rw [show c + 1 + k = c + (k + 1) by omega]
    congr 1
    simp only [deliver, h3, List.range_succ_eq_map, List.map_cons, List.map_map, List.append_assoc, List.singleton_append,
      recordAt, Nat.add_zero, Function.comp_def]
    simp only [Nat.succ_eq_add_one, Nat.add_assoc, Nat.add_comm 1]

/-- Everything the row loop can do when it answers a next state. -/
theorem runRow_next {row : Word} {n c : Nat} {s t : State} (h : runRow row n c s = .next t) :
    ∃ more ready,
      (t = succeed s.derived.imgW { s with records := s.records ++ more, sink := ready }) ∨
      (∃ k e, c ≤ k ∧ k < c + n ∧ pixelColor s k = .error (.error e) ∧
        t = raiseError e (rowErrorData e k) { s with records := s.records ++ more, sink := ready }) ∨
      (∃ k color, c ≤ k ∧ k < c + n ∧ pixelColor s k = .ok color ∧
        t = holdRow ⟨row, k, recordAt s row k color⟩ { s with records := s.records ++ more, sink := ready }) := by
  induction n generalizing c s with
  | zero =>
    cases h
    exact ⟨[], s.sink, .inl (by simp)⟩
  | succ n ih =>
    unfold runRow at h
    split at h
    · cases h
    · next e he =>
      cases h
      exact ⟨[], s.sink, .inr (.inl ⟨c, e, by omega, by omega, he, by simp⟩)⟩
    · next color hc =>
      split at h
      · cases h
        exact ⟨[], s.sink, .inr (.inr ⟨c, color, by omega, by omega, hc, by simp⟩)⟩
      · next ready hr =>
        obtain ⟨more, ready', h'⟩ := ih h
        refine ⟨recordAt s row c color :: more, ready', ?_⟩
        rcases h' with h' | ⟨k, e, h1, h2, h3, h4⟩ | ⟨k, v, h1, h2, h3, h4⟩
        · exact .inl (by rw [h']; simp [deliver, succeed])
        · exact .inr (.inl ⟨k, e, by omega, by omega, h3, by rw [h4]; simp [deliver, raiseError]⟩)
        · exact .inr (.inr ⟨k, v, by omega, by omega, h3, by rw [h4]; simp [deliver, holdRow]; rfl⟩)

theorem runRow_total {row : Word} {n c : Nat} {s : State} (h : ∀ k, c ≤ k → k < c + n → pixelColor s k ≠ .error .noByte) :
    ∃ t, runRow row n c s = .next t := by
  induction n generalizing c s with
  | zero => exact ⟨_, rfl⟩
  | succ n ih =>
    unfold runRow
    split
    · next hn => exact absurd hn (h c (by omega) (by omega))
    · exact ⟨_, rfl⟩
    · split
      · exact ⟨_, rfl⟩
      · exact ih (fun k h1 h2 => h k (by omega) (by omega))

/-- A column's color depends only on the registers, on the bytes the row uses and on the palette words below PAL_SIZE. -/
theorem pixelColor_congr {s u : State} (hp : u.params = s.params) (hh : u.header = s.header) (hd : u.derived = s.derived)
    (hw : u.draw = s.draw) (hb : ∀ a, a < usedRowBytes s → byteAt u a = byteAt s a)
    (hpal : ∀ i : Byte, i.toNat < s.derived.palSize.toNat → palWord u i = palWord s i) {c : Nat}
    (hc : c < s.derived.imgW.toNat) : pixelColor u c = pixelColor s c := by
  have hl : ∀ i : Byte, lookupPalette u i = lookupPalette s i := by
    intro i
    by_cases hi : s.derived.palSize.toNat ≤ i.toNat
    · rw [lookup_error hi, lookup_error (s := u) (by rw [hd]; exact hi)]
    · rw [lookup_ok (s := s) (by omega), lookup_ok (s := u) (by rw [hd]; omega), hp, hpal i (by omega)]
  have hm : ∀ a n, a + n ≤ usedRowBytes s → memRead u a n = memRead s a n := by
    intro a n h
    unfold memRead
    congr 1
    apply List.map_congr_left
    intro k hk
    exact hb _ (by have := List.mem_range.1 hk; omega)
  unfold usedRowBytes at hb hm
  unfold pixelColor
  rw [hh]
  split
  · next e => rw [e] at hb; unfold ifInBuffer; rw [hp, hl, index1, index1, hb _ (by omega)]
  · next e => rw [e] at hb; unfold ifInBuffer; rw [hp, hl, index4, index4, hb _ (by omega)]
  · next e => rw [e] at hb; unfold ifInBuffer; rw [hp, hl, index8, index8, hb _ (by omega)]
  · next e => rw [e] at hm; unfold ifInBuffer; rw [hp, pix16, pix16, hm _ _ (by omega)]
  · next e => rw [e] at hb; unfold ifInBuffer; rw [hp, pix24, pix24, hb _ (by omega), hb _ (by omega), hb _ (by omega)]
  · next e =>
    rw [e] at hm
    have h4 := hm (4 * c) 4 (by omega)
    unfold ifInBuffer; simp only [hp, pix32, h4, hd, hw]
  · rfl

/-- A byte all of whose bits belong to the row is fixed by the row's bits. -/
theorem byteAt_eq_of_bits {s u : State} {used a : Nat}
    (hb : ∀ n, n < used → (byteAt u (n / 8)).getLsbD (7 - n % 8) = (byteAt s (n / 8)).getLsbD (7 - n % 8))
    (ha : 8 * a + 8 ≤ used) : byteAt u a = byteAt s a := by
  apply BitVec.eq_of_getLsbD_eq
  intro i hi
  have h := hb (8 * a + (7 - i)) (by omega)
  rwa [show (8 * a + (7 - i)) / 8 = a by omega, show 7 - (8 * a + (7 - i)) % 8 = i by omega] at h

/-- A column's color depends only on the registers, the palette and the row's own bits (R136, R152, R153). -/
theorem pixelColor_congr_bits {s : State} {rb' : Memory}
    (hb : ∀ n, n < s.header.bpp.toNat * s.derived.imgW.toNat →
      (byteAt { s with rb := rb' } (n / 8)).getLsbD (7 - n % 8) = (byteAt s (n / 8)).getLsbD (7 - n % 8))
    {c : Nat} (hc : c < s.derived.imgW.toNat) : pixelColor { s with rb := rb' } c = pixelColor s c := by
  have whole : 8 ∣ s.header.bpp.toNat → pixelColor { s with rb := rb' } c = pixelColor s c := by
    rintro ⟨d, hd⟩
    refine pixelColor_congr (s := s) (u := { s with rb := rb' }) rfl rfl rfl rfl (fun a ha => ?_) (fun _ _ => rfl) hc
    refine byteAt_eq_of_bits hb ?_
    unfold usedRowBytes at ha
    rw [hd, Nat.mul_assoc] at ha ⊢
    omega
  by_cases h1 : s.header.bpp.toNat = 1
  · have i1 : index1 { s with rb := rb' } c = index1 s c := by
      rw [h1] at hb
      apply BitVec.eq_of_toNat_eq
      rw [index1_toNat, index1_toNat, ← Nat.toNat_testBit, ← Nat.toNat_testBit]
      exact congrArg Bool.toNat (hb c (by omega))
    unfold pixelColor; simp only [h1]; rw [i1]; rfl
  · by_cases h4 : s.header.bpp.toNat = 4
    · have i4 : index4 { s with rb := rb' } c = index4 s c := by
        rw [h4] at hb
        have hk : ∀ k, k < 4 → (byteAt { s with rb := rb' } (c / 2)).getLsbD (7 - (4 * (c % 2) + k))
            = (byteAt s (c / 2)).getLsbD (7 - (4 * (c % 2) + k)) := by
          intro k hk
          have h := hb (4 * c + k) (by omega)
          rwa [show (4 * c + k) / 8 = c / 2 by omega, show (4 * c + k) % 8 = 4 * (c % 2) + k by omega] at h
        unfold index4
        split
        · next e =>
          congr 1
          apply BitVec.eq_of_getLsbD_eq
          intro i hi
          rw [BitVec.getLsbD_extractLsb', BitVec.getLsbD_extractLsb']
          have h := hk (3 - i) (by omega)
          rw [e, show 7 - (4 * 0 + (3 - i)) = 4 + i by omega] at h
          rw [h]
        · next e =>
          congr 1
          apply BitVec.eq_of_getLsbD_eq
          intro i hi
          rw [BitVec.getLsbD_extractLsb', BitVec.getLsbD_extractLsb']
          have h := hk (3 - i) (by omega)
          rw [show c % 2 = 1 by omega, show 7 - (4 * 1 + (3 - i)) = 0 + i by omega] at h
          rw [h]
      unfold pixelColor; simp only [h4]; rw [i4]; rfl
    · by_cases h8 : 8 ∣ s.header.bpp.toNat
      · exact whole h8
      · have hn : ∀ k, 8 ∣ k → s.header.bpp.toNat ≠ k := fun k hk e => h8 (e ▸ hk)
        unfold pixelColor
        split
        · next e => exact absurd e h1
        · next e => exact absurd e h4
        · next e => exact absurd e (hn 8 (by decide))
        · next e => exact absurd e (hn 16 (by decide))
        · next e => exact absurd e (hn 24 (by decide))
        · next e => exact absurd e (hn 32 (by decide))
        · rfl

/-- The sink that takes `k` records and then what the given sink takes. -/
def joinSink (k : Nat) : SinkReady → SinkReady
  | .always => .always
  | .records m => .records (k + m)

/-- A row held by the sink and let go on is the row that was never held. -/
theorem runRow_resume {row : Word} {n c k : Nat} {u t : State} (later : SinkReady) (hj : u.job = none)
    (hn : c + n = u.derived.imgW.toNat) (h : runRow row n c { u with sink := .records k } = .next t) (ht : t.job ≠ none) :
    t.rst = u.rst ∧ t.rsp = u.rsp ∧
    ∃ j, t.job = some j ∧ resumeRow j { t with sink := later } = runRow row n c { u with sink := joinSink k later } := by
  induction n generalizing c k u with
  | zero => cases h; exact absurd hj ht
  | succ n ih =>
    unfold runRow at h
    have pc : ∀ x, pixelColor { u with sink := x } c = pixelColor u c := fun _ => rfl
    simp only [pc] at h
    split at h
    · cases h
    · cases h; exact absurd hj ht
    · next color hc =>
      cases k with
      | zero =>
        simp only [SinkReady.accept] at h
        cases h
        refine ⟨rfl, rfl, _, rfl, ?_⟩
        simp only [runRow, pc, hc, resumeRow]
        cases later with
        | always =>
          simp only [SinkReady.accept, joinSink]
          simp only [holdRow, releaseRow, deliver, ← hj, ← hn]
          rw [show c + (n + 1) - (c + 1) = n by omega]; rfl
        | records m =>
          cases m with
          | zero => simp only [SinkReady.accept, joinSink]; rfl
          | succ m =>
            rw [joinSink, show 0 + (m + 1) = m + 1 by omega]
            simp only [SinkReady.accept]
            simp only [holdRow, releaseRow, deliver, ← hj, ← hn]
            rw [show c + (n + 1) - (c + 1) = n by omega]; rfl
      | succ k =>
        simp only [SinkReady.accept] at h
        have := ih (u := { u with records := u.records ++ [recordAt u row c color] }) (c := c + 1) (k := k) hj (by rw [← hn]; omega) h
        obtain ⟨r1, r2, j, h1, h2⟩ := this
        refine ⟨r1, r2, j, h1, ?_⟩
        rw [h2, runRow]
        simp only [pc, hc]
        cases later with
        | always => rfl
        | records m =>
          rw [joinSink, joinSink, show k + 1 + m = (k + m) + 1 by omega]; rfl

/-- The state with other parameters, row buffer and epoch. -/
def swapRam (p : Params) (rb : Memory) (ep : Nat) (s : State) : State := { s with params := p, rb := rb, epoch := ep }

/-- The row loop reads the RAMs only through the columns' colors. -/
theorem runRow_swap {row : Word} {n c : Nat} {s t : State} (p : Params) (rb : Memory) (ep : Nat) (h : runRow row n c s = .next t)
    (hp : ∀ k, c ≤ k → k < c + n → pixelColor (swapRam p rb ep s) k = pixelColor s k) :
    runRow row n c (swapRam p rb ep s) = .next (swapRam p rb ep t) := by
  induction n generalizing c s with
  | zero => cases h; rfl
  | succ n ih =>
    unfold runRow at h ⊢
    rw [hp c (by omega) (by omega)]
    split at h
    · cases h
    · next e he => cases h; rfl
    · next color hc =>
      rw [show (swapRam p rb ep s).sink = s.sink from rfl]
      split at h
      · cases h; rfl
      · exact ih h (fun k h1 h2 => hp k (by omega) (by omega))

/-- The decode commands read the RAMs only through the columns' colors. -/
theorem decode_swap {s t : State} (p : Params) (rb : Memory) (ep : Nat) (x : Word)
    (hp : ∀ k, k < s.derived.imgW.toNat → pixelColor (swapRam p rb ep s) k = pixelColor s k) :
    (exec (.decodePixel x) s = .next t → exec (.decodePixel x) (swapRam p rb ep s) = .next (swapRam p rb ep t)) ∧
    (exec (.decodeRow x) s = .next t → exec (.decodeRow x) (swapRam p rb ep s) = .next (swapRam p rb ep t)) := by
  constructor
  · intro h
    simp only [exec, execDecodePixel] at h ⊢
    rw [show (swapRam p rb ep s).derived = s.derived from rfl]
    split at h
    · next hx => rw [if_pos hx]; cases h; rfl
    · next hx =>
      rw [if_neg hx, hp _ (by omega)]
      split at h
      · cases h
      · cases h; rfl
      · cases h; rfl
  · intro h
    by_cases ho : s.isOpen = true
    · by_cases hh : x.toNat < s.derived.imgH.toNat
      · rw [decodeRow_run ho hh] at h
        rw [decodeRow_run (s := swapRam p rb ep s) ho hh]
        exact runRow_swap p rb ep h (fun k _ h2 => hp k (by have : k < 0 + s.derived.imgW.toNat := h2; omega))
      · rw [decodeRow_range ho (by omega)] at h
        rw [decodeRow_range (s := swapRam p rb ep s) ho (by exact Nat.le_of_not_lt hh)]
        cases h; rfl
    · rw [decodeRow_closed x (by simpa using ho)] at h
      rw [decodeRow_closed (s := swapRam p rb ep s) x (by simpa [swapRam] using ho)]
      cases h; rfl

end Sys2Proof.Machine
end

