-- ==== Sys2Proof/Laws/Exec.lean ====
section
/-! SUPPORT. What each command can do: how it ends, and which fields it can change. -/

namespace Sys2Proof.Machine

open Sys2Proof

/-- The command answered and changed nothing else. -/
def Answered (s t : State) : Prop :=
  (∃ d, t = succeed d s) ∨ ∃ e d, e ≠ .truncatedData ∧ t = raiseError e d s

theorem Answered.eq {s t : State} (h : Answered s t) : t = { s with err := t.err, rsp := t.rsp } := by
  rcases h with ⟨d, rfl⟩ | ⟨e, d, -, rfl⟩ <;> rfl

/-- The commands that only answer. -/
theorem answering {i : Instr} {s t : State}
    (hi : i.opcode ∈ [.nop, .cfgRead, .palRead, .rowbufRead, .decodePixel, .rowAddr, .quant, .mix, .palLookup, .maskShift])
    (h : exec i s = .next t) : Answered s t := by
  cases i with
  | nop => cases h; exact .inl ⟨_, rfl⟩
  | cfgRead sel =>
    simp only [exec, execCfgRead] at h
    split at h <;> cases h
    · exact .inr ⟨_, _, by decide, rfl⟩
    · exact .inl ⟨_, rfl⟩
  | palRead idx => cases h; exact .inl ⟨_, rfl⟩
  | rowbufRead addr =>
    simp only [exec, execRowbufRead] at h
    split at h <;> cases h
    · exact .inl ⟨_, rfl⟩
    · exact .inr ⟨_, _, by decide, rfl⟩
  | decodePixel col =>
    simp only [exec, execDecodePixel] at h
    split at h
    · cases h; exact .inr ⟨_, _, by decide, rfl⟩
    · split at h <;> cases h
      · next e he => exact .inr ⟨_, _, by rcases pixelColor_error he with rfl | rfl <;> decide, rfl⟩
      · exact .inl ⟨_, rfl⟩
  | rowAddr row =>
    simp only [exec, execRowAddr] at h
    split at h <;> cases h
    · exact .inr ⟨_, _, by decide, rfl⟩
    · exact .inl ⟨_, rfl⟩
  | quant r g b => cases h; exact .inl ⟨_, rfl⟩
  | mix a b w => cases h; exact .inl ⟨_, rfl⟩
  | palLookup idx =>
    simp only [exec, execPalLookup] at h
    split at h <;> cases h
    · next e he => exact .inr ⟨_, _, by unfold lookupPalette at he; split at he <;> cases he; decide, rfl⟩
    · exact .inl ⟨_, rfl⟩
  | maskShift m =>
    simp only [exec, execMaskShift] at h
    split at h <;> cases h
    · next e he => exact .inr ⟨_, _, by unfold shiftOfMask at he; split at he <;> cases he; decide, rfl⟩
    · exact .inl ⟨_, rfl⟩
  | cfgWrite _ _ => simp [Instr.opcode] at hi
  | palWrite _ _ => simp [Instr.opcode] at hi
  | rowbufWrite _ _ => simp [Instr.opcode] at hi
  | openBlock => simp [Instr.opcode] at hi
  | closeBlock => simp [Instr.opcode] at hi
  | errClear => simp [Instr.opcode] at hi
  | decodeRow _ => simp [Instr.opcode] at hi

/-- Everything a CFG_WRITE can do (R101). -/
theorem cfgWrite_cases {sel : Byte} {v : Word} {s t : State} (h : exec (.cfgWrite sel v) s = .next t) :
    (t = raiseError .illegalCommand 0 s) ∨
    ∃ r, r.sel = sel ∧ ((r.group = .draw ∧ t = succeed 0 (writeReg r v s)) ∨
      (r.group = .header ∧ s.isOpen = true ∧ t = succeed 0 (closeState (writeReg r v s))) ∨
      (r.group = .header ∧ s.isOpen = false ∧ t = succeed 0 (writeReg r v s))) := by
  simp only [exec, execCfgWrite] at h
  split at h
  · cases h; exact .inl rfl
  · next r hr =>
    have hr := Reg.sel_of_ofSel hr
    split at h
    · cases h; exact .inl rfl
    · next g => cases h; exact .inr ⟨r, hr, .inl ⟨g, rfl⟩⟩
    · next g =>
      split at h <;> cases h
      · next ho => exact .inr ⟨r, hr, .inr (.inl ⟨g, ho, rfl⟩)⟩
      · next ho => exact .inr ⟨r, hr, .inr (.inr ⟨g, by simpa using ho, rfl⟩)⟩

/-- How a DECODE_ROW can end: some records, then an answer or a waiting column. -/
theorem decodeRow_cases {s t : State} {row : Word} (h : exec (.decodeRow row) s = .next t) :
    ∃ more ready, Answered { s with records := s.records ++ more, sink := ready } t ∨
     ∃ j, t = holdRow j { s with records := s.records ++ more, sink := ready } := by
  by_cases ho : s.isOpen = true
  · by_cases hh : row.toNat < s.derived.imgH.toNat
    · rw [decodeRow_run ho hh] at h
      obtain ⟨more, k, h | ⟨m, e, h1, h2, h3, h⟩ | ⟨m, color, h1, h2, h3, h⟩⟩ := runRow_next h
      · exact ⟨more, k, .inl (.inl ⟨_, h⟩)⟩
      · exact ⟨more, k, .inl (.inr ⟨_, _, by rcases pixelColor_error h3 with rfl | rfl <;> decide, h⟩)⟩
      · exact ⟨more, k, .inr ⟨_, h⟩⟩
    · rw [decodeRow_range ho (by omega)] at h; cases h
      exact ⟨[], s.sink, .inl (.inr ⟨.range, 0, by decide, by simp⟩)⟩
  · rw [decodeRow_closed row (by simpa using ho)] at h; cases h
    exact ⟨[], s.sink, .inl (.inl ⟨0, by simp⟩)⟩

/-- Shape of each command's ending: the state before responding, then a response. -/
theorem exec_cases {i : Instr} {s t : State} (h : exec i s = .next t) :
    (∃ u, (u.err = s.err ∨ (i = .errClear ∧ u.err = 0)) ∧ u.rsp = s.rsp ∧ u.job = s.job ∧ Answered u t ∧
       (i = .errClear → u.err = 0 ∧ ∃ d, t = succeed d u)) ∨
    (∃ row j more ready, i = .decodeRow row ∧ t = holdRow j { s with records := s.records ++ more, sink := ready }) := by
  have ans : i.opcode ∈ [.nop, .cfgRead, .palRead, .rowbufRead, .decodePixel, .rowAddr, .quant, .mix, .palLookup, .maskShift] → 
   (∃ u, (u.err = s.err ∨ (i = .errClear ∧ u.err = 0)) ∧ u.rsp = s.rsp ∧ u.job = s.job ∧ Answered u t ∧
       (i = .errClear → u.err = 0 ∧ ∃ d, t = succeed d u)) := fun hm =>
      ⟨s, .inl rfl, rfl, rfl, answering hm h, fun e => by subst e; simp [Instr.opcode] at hm⟩
  cases i with
  | nop => exact .inl (ans (by decide))
  | cfgRead sel => exact .inl (ans (by simp [Instr.opcode]))
  | palRead idx => exact .inl (ans (by simp [Instr.opcode]))
  | rowbufRead addr => exact .inl (ans (by simp [Instr.opcode]))
  | decodePixel col => exact .inl (ans (by simp [Instr.opcode]))
  | rowAddr row => exact .inl (ans (by simp [Instr.opcode]))
  | quant r g b => exact .inl (ans (by simp [Instr.opcode]))
  | mix a b w => exact .inl (ans (by simp [Instr.opcode]))
  | palLookup idx => exact .inl (ans (by simp [Instr.opcode]))
  | maskShift m => exact .inl (ans (by simp [Instr.opcode]))
  | cfgWrite sel v =>
    left
    simp only [exec, execCfgWrite] at h
    split at h
    · cases h; exact ⟨s, .inl rfl, rfl, rfl, .inr ⟨_, _, by decide, rfl⟩, fun e => by cases e⟩
    · split at h
      · cases h; exact ⟨s, .inl rfl, rfl, rfl, .inr ⟨_, _, by decide, rfl⟩, fun e => by cases e⟩
      · cases h; exact ⟨_, .inl (by simp), by simp, by simp, .inl ⟨_, rfl⟩, fun e => by cases e⟩
      · split at h <;> cases h
        · exact ⟨_, .inl (by simp), by simp, by simp, .inl ⟨_, rfl⟩, fun e => by cases e⟩
        · exact ⟨_, .inl (by simp), by simp, by simp, .inl ⟨_, rfl⟩, fun e => by cases e⟩
  | palWrite idx w => cases h; exact .inl ⟨setPalWord idx w s, .inl rfl, rfl, rfl, .inl ⟨_, rfl⟩, fun e => by cases e⟩
  | rowbufWrite addr w =>
    left
    simp only [exec, execRowbufWrite] at h
    split at h <;> cases h
    · exact ⟨_, .inl (by simp), by simp, by simp, .inl ⟨_, rfl⟩, fun e => by cases e⟩
    · exact ⟨s, .inl rfl, rfl, rfl, .inr ⟨_, _, by decide, rfl⟩, fun e => by cases e⟩
  | openBlock =>
    left
    simp only [exec, execOpenBlock] at h
    split at h <;> cases h
    · next e he => exact ⟨closeState s, .inl rfl, rfl, rfl, .inr ⟨_, _, deriveRegs_error he, rfl⟩, fun e => by cases e⟩
    · next d hd => exact ⟨{ closeState s with isOpen := true, derived := d }, .inl rfl, rfl, rfl, .inl ⟨_, rfl⟩, fun e => by cases e⟩
  | closeBlock => cases h; exact .inl ⟨closeState s, .inl rfl, rfl, rfl, .inl ⟨_, rfl⟩, fun e => by cases e⟩
  | errClear => cases h; exact .inl ⟨clearError s, .inr ⟨rfl, rfl⟩, rfl, rfl, .inl ⟨_, rfl⟩, fun _ => ⟨rfl, _, rfl⟩⟩
  | decodeRow row =>
    obtain ⟨more, k, h | ⟨j, h⟩⟩ := decodeRow_cases h
    · exact .inl ⟨{ s with records := s.records ++ more, sink := k }, .inl rfl, rfl, rfl, h, fun e => by cases e⟩
    · exact .inr ⟨row, j, more, k, rfl, h⟩

/-- Which of the block's fields a command can change, by command. -/
theorem exec_scope {i : Instr} {s t : State} (h : exec i s = .next t) :
    (i = .openBlock ∨ i = .closeBlock ∨ (∃ sel v, sel.toNat ≤ 9 ∧ i = .cfgWrite sel v) ∨ (t.isOpen = s.isOpen ∧ t.derived = s.derived)) ∧
    ((∃ more, t.records = s.records ++ more) ∧ ((∃ row, i = .decodeRow row) ∨ t.records = s.records)) ∧
    ((∃ idx w, i = .palWrite idx w) ∨ t.pal = s.pal) ∧
    ((∃ a w, i = .rowbufWrite a w) ∨ t.rb = s.rb) ∧ t.epoch = s.epoch ∧ t.params = s.params := by
  have ans : ∀ {i s t}, i.opcode ∈ [.nop, .cfgRead, .palRead, .rowbufRead, .decodePixel, .rowAddr, .quant, .mix, .palLookup, .maskShift] → 
    exec i s = .next t → (t.isOpen = s.isOpen ∧ t.derived = s.derived) ∧ t.records = s.records ∧ t.pal = s.pal ∧ t.rb = s.rb ∧ t.epoch = s.epoch ∧ t.params = s.params := by
    intro i s t hm h
    have := (answering hm h).eq
    rw [this]; simp
  have fin : (t.isOpen = s.isOpen ∧ t.derived = s.derived) ∧ t.records = s.records ∧ t.pal = s.pal ∧ t.rb = s.rb ∧ t.epoch = s.epoch ∧ t.params = s.params → 
     (i = .openBlock ∨ i = .closeBlock ∨ (∃ sel v, sel.toNat ≤ 9 ∧ i = .cfgWrite sel v) ∨ (t.isOpen = s.isOpen ∧ t.derived = s.derived)) ∧
    ((∃ more, t.records = s.records ++ more) ∧ ((∃ row, i = .decodeRow row) ∨ t.records = s.records)) ∧
    ((∃ idx w, i = .palWrite idx w) ∨ t.pal = s.pal) ∧
    ((∃ a w, i = .rowbufWrite a w) ∨ t.rb = s.rb) ∧ t.epoch = s.epoch ∧ t.params = s.params := fun ⟨h1, h2, h3, h4, h5, h6⟩ =>
    ⟨.inr (.inr (.inr h1)), ⟨⟨[], by simp [h2]⟩, .inr h2⟩, .inr h3, .inr h4, h5, h6⟩
  cases i with
  | nop => exact fin (ans (by decide) h)
  | cfgRead sel => exact fin (ans (by simp [Instr.opcode]) h)
  | palRead idx => exact fin (ans (by simp [Instr.opcode]) h)
  | rowbufRead addr => exact fin (ans (by simp [Instr.opcode]) h)
  | decodePixel col => exact fin (ans (by simp [Instr.opcode]) h)
  | rowAddr row => exact fin (ans (by simp [Instr.opcode]) h)
  | quant r g b => exact fin (ans (by simp [Instr.opcode]) h)
  | mix a b w => exact fin (ans (by simp [Instr.opcode]) h)
  | palLookup idx => exact fin (ans (by simp [Instr.opcode]) h)
  | maskShift m => exact fin (ans (by simp [Instr.opcode]) h)
  | palWrite idx w => cases h; exact ⟨.inr (.inr (.inr ⟨rfl, rfl⟩)), ⟨⟨[], by simp⟩, .inr rfl⟩, .inl ⟨_, _, rfl⟩, .inr rfl, rfl, rfl⟩
  | rowbufWrite a w =>
    simp only [exec, execRowbufWrite] at h
    split at h <;> cases h <;>
     exact ⟨.inr (.inr (.inr ⟨rfl, rfl⟩)), ⟨⟨[], by simp⟩, .inr rfl⟩, .inr rfl, .inl ⟨_, _, rfl⟩, rfl, rfl⟩
  | openBlock =>
    simp only [exec, execOpenBlock] at h
    split at h <;> cases h <;>
     exact ⟨.inl rfl, ⟨⟨[], by simp⟩, .inr rfl⟩, .inr rfl, .inr rfl, rfl, rfl⟩
  | closeBlock => cases h; exact ⟨.inr (.inl rfl), ⟨⟨[], by simp⟩, .inr rfl⟩, .inr rfl, .inr rfl, rfl, rfl⟩
  | errClear => cases h; exact fin ⟨⟨rfl, rfl⟩, rfl, rfl, rfl, rfl, rfl⟩
  | decodeRow row =>
    obtain ⟨more, k, h | ⟨j, h⟩⟩ := decodeRow_cases h
    · have := h.eq
      rw [this]
      exact ⟨.inr (.inr (.inr ⟨rfl, rfl⟩)), ⟨⟨more, rfl⟩, .inl ⟨_, rfl⟩⟩, .inr rfl, .inr rfl, rfl, rfl⟩
    · rw [h]
      exact ⟨.inr (.inr (.inr ⟨rfl, rfl⟩)), ⟨⟨more, rfl⟩, .inl ⟨_, rfl⟩⟩, .inr rfl, .inr rfl, rfl, rfl⟩
  | cfgWrite sel v =>
    rcases cfgWrite_cases h with rfl | ⟨q, hq, ⟨hg, rfl⟩ | ⟨hg, ho, rfl⟩ | ⟨hg, ho, rfl⟩⟩
    · exact fin ⟨⟨rfl, rfl⟩, rfl, rfl, rfl, rfl, rfl⟩
    · exact fin (by simp)
    · exact ⟨.inr (.inr (.inl ⟨_, _, by have := header_sel q hg; rwa [hq] at this, rfl⟩)), ⟨⟨[], by simp⟩, .inr (by simp)⟩, .inr (by simp), .inr (by simp), by simp, by simp⟩
    · exact fin (by simp)

end Sys2Proof.Machine
end

