-- ==== Sys2Proof/Laws/PerInstr.lean ====
section
/-! SUPPORT. The per-instruction family EncodingMatches: the encoder's CMD word is one that the opcode map of
30_encoding.md R83 gives to the instruction's mnemonic. -/

namespace Sys2Proof.Laws.EncodingMatches

open Sys2Proof

/-- The CMD word the encoder writes for `i` is selected by `i`'s own row of R83. -/
def Statement (i : Instr) : Prop := (encode i).word &&& i.opcode.mask = i.opcode.matchBits

theorem nop : Statement .nop := Machine.encode_legal .nop

theorem cfgWrite (sel : Byte) (value : Word) : Statement (.cfgWrite sel value) :=
  Machine.encode_legal (.cfgWrite sel value)

theorem cfgRead (sel : Byte) : Statement (.cfgRead sel) := Machine.encode_legal (.cfgRead sel)

theorem palWrite (idx : Byte) (word : Word) : Statement (.palWrite idx word) :=
  Machine.encode_legal (.palWrite idx word)

theorem palRead (idx : Byte) : Statement (.palRead idx) := Machine.encode_legal (.palRead idx)

theorem rowbufWrite (addr : BitVec 16) (word : Word) : Statement (.rowbufWrite addr word) :=
  Machine.encode_legal (.rowbufWrite addr word)

theorem rowbufRead (addr : BitVec 16) : Statement (.rowbufRead addr) := Machine.encode_legal (.rowbufRead addr)

theorem openBlock : Statement .openBlock := Machine.encode_legal .openBlock

theorem closeBlock : Statement .closeBlock := Machine.encode_legal .closeBlock

theorem errClear : Statement .errClear := Machine.encode_legal .errClear

theorem decodeRow (row : Word) : Statement (.decodeRow row) := Machine.encode_legal (.decodeRow row)

theorem decodePixel (col : Word) : Statement (.decodePixel col) := Machine.encode_legal (.decodePixel col)

theorem rowAddr (row : Word) : Statement (.rowAddr row) := Machine.encode_legal (.rowAddr row)

theorem quant (r g b : Byte) : Statement (.quant r g b) := Machine.encode_legal (.quant r g b)

theorem mix (colorA colorB : Color) (w : Byte) : Statement (.mix colorA colorB w) :=
  Machine.encode_legal (.mix colorA colorB w)

theorem palLookup (idx : Byte) : Statement (.palLookup idx) := Machine.encode_legal (.palLookup idx)

theorem maskShift (mask : Word) : Statement (.maskShift mask) := Machine.encode_legal (.maskShift mask)

end Sys2Proof.Laws.EncodingMatches
end

