-- ==== Sys2Proof/Laws/Step.lean ====
section
/-! SUPPORT. Everything one step can do, and the invariant kept by each operation. -/

namespace Sys2Proof.Machine

open Sys2Proof

theorem step_command {s : State} {c : Command} {rest : List Command} (h1 : s.rst = false) (h2 : s.rsp = none)
    (h3 : s.job = none) (h4 : s.cmds = c :: rest) {i : Instr} (h : decode c.word c.data = .ok i) :
    step s = exec i (acceptCommand rest s) := by
  simp [step, h1, h2, h3, h4, h]

theorem step_illegal {s : State} {c : Command} {rest : List Command} (h1 : s.rst = false) (h2 : s.rsp = none)
    (h3 : s.job = none) (h4 : s.cmds = c :: rest) {e : DecodeError} (h : decode c.word c.data = .error e) :
    step s = .next (illegalCommand (acceptCommand rest s)) := by
  simp [step, h1, h2, h3, h4, h]

theorem step_row {s : State} {j : RowJob} (h1 : s.rst = false) (h2 : s.rsp = none) (h3 : s.job = some j) :
    step s = resumeRow j s := by
  simp [step, h1, h2, h3]

/-- Everything a step can be. -/
theorem step_cases {s t : State} (h : step s = .next t) :
    (s.rst = true ∧ t = assertReset s) ∨
    (s.rst = false ∧ t = s) ∨
    (s.rst = false ∧ ∃ r, s.rsp = some r ∧ t = takeResponse r s) ∨
    (s.rst = false ∧ s.rsp = none ∧ ∃ j ready, s.job = some j ∧ s.sink.accept = some ready ∧
      runRow j.row (s.derived.imgW.toNat - (j.col + 1)) (j.col + 1) (deliver j.offered ready (releaseRow s)) = .next t) ∨
    (s.rst = false ∧ s.rsp = none ∧ s.job = none ∧ ∃ c rest, s.cmds = c :: rest ∧
      ((∃ i, decode c.word c.data = .ok i ∧ exec i (acceptCommand rest s) = .next t) ∨
        ((∃ e, decode c.word c.data = .error e) ∧ t = illegalCommand (acceptCommand rest s)))) := by
  unfold step at h
  split at h
  · next hr => cases h; exact .inl ⟨hr, rfl⟩
  · next hr =>
    have hr : s.rst = false := by simpa using hr
    split at h
    · next r hrsp =>
      split at h <;> cases h
      · exact .inr (.inr (.inl ⟨hr, r, hrsp, rfl⟩))
      · exact .inr (.inl ⟨hr, rfl⟩)
    · next hrsp =>
      split at h
      · next j hj =>
        unfold resumeRow at h
        split at h
        · cases h; exact .inr (.inl ⟨hr, rfl⟩)
        · next k hk => exact .inr (.inr (.inr (.inl ⟨hr, hrsp, j, k, hj, hk, h⟩)))
      · next hj =>
        split at h
        · cases h; exact .inr (.inl ⟨hr, rfl⟩)
        · next c rest hc =>
          refine .inr (.inr (.inr (.inr ⟨hr, hrsp, hj, c, rest, hc, ?_⟩)))
          split at h
          · next i hi => exact .inl ⟨i, hi, h⟩
          · next e he => cases h; exact .inr ⟨⟨e, he⟩, rfl⟩

/-- A step that changes nothing, any number of times. -/
theorem run_fix {s : State} (h : step s = .next s) (n : Nat) : Sys2Proof.core.run n s = .next s := by
  induction n with
  | zero => rfl
  | succ n ih =>
    have h' : Sys2Proof.core.step s = .next s := h
    simp only [Host.Core.run, h']; exact ih

theorem State.Inv.succeed {s : State} (hi : s.Inv) (hj : s.job = none) (d : Word) : (Machine.succeed d s).Inv :=
  ⟨hi.params, hi.rams, hi.err, fun r hr => by cases hr; exact (by decide : legalErr 0), hi.lifecycle, fun j h => by rw [succeed_job, hj] at h; cases h⟩

theorem State.Inv.raiseError {s : State} (hi : s.Inv) (hj : s.job = none) {e : ErrorKind} (he : e ≠ .truncatedData) (d : Word) :
    (Machine.raiseError e d s).Inv :=
  ⟨hi.params, hi.rams, sticky_legal he hi.err, fun r hr => by cases hr; exact code_legal e he, hi.lifecycle,
    fun j h => by rw [raiseError_job, hj] at h; cases h⟩

theorem State.Inv.closeState {s : State} (hi : s.Inv) (hj : s.job = none) : (Machine.closeState s).Inv :=
  ⟨hi.params, hi.rams, hi.err, hi.rsp, ⟨fun h => by simp at h, fun _ => rfl⟩, fun j h => by rw [closeState_job, hj] at h; cases h⟩

theorem State.Inv.emitted {s : State} (hi : s.Inv) (hj : s.job = none) (more : List PixelRecord) (k : SinkReady) :
    State.Inv { s with records := s.records ++ more, sink := k } :=
  ⟨hi.params, hi.rams, hi.err, hi.rsp, hi.lifecycle, fun j h => by rw [show _ = s.job from rfl, hj] at h; cases h⟩

theorem State.Inv.accept {s : State} (hi : s.Inv) (hj : s.job = none) (rest : List Command) : (acceptCommand rest s).Inv :=
  ⟨hi.params, hi.rams, hi.err, hi.rsp, hi.lifecycle, by simp [hj]⟩

theorem bpp_of_open {s : State} (hi : s.Inv) (ho : s.isOpen = true) : DerivedOk s.params s.header s.derived :=
  deriveRegs_ok (hi.lifecycle.1 ho)

/-- The bytes a row uses lie within STRIDE, and STRIDE within the row buffer (R66). -/
theorem used_le_stride {s : State} (hi : s.Inv) (ho : s.isOpen = true) :
    usedRowBytes s ≤ s.derived.stride.toNat ∧ s.derived.stride.toNat ≤ s.params.rowbufBytes ∧ 
    s.derived.stride.toNat = stride s.header.bpp.toNat s.header.width.toNat ∧ s.derived.imgW = s.header.width := by
  obtain ⟨-, -, -, h4, h5, -, h7, -⟩ := bpp_of_open hi ho
  have hr := hi.params
  have e : s.derived.stride.toNat = stride s.header.bpp.toNat s.header.width.toNat := by
    rw [h7, BitVec.toNat_ofNat]; omega
  refine ⟨?_, by omega, e, h5⟩
  rw [e, usedRowBytes, h5, stride]
  generalize s.header.bpp.toNat * _ = n
  omega

/-- No column's bytes leave the row buffer (R66). -/
theorem noByte_of_inv {s : State} (hi : s.Inv) {c : Nat} (hc : c < s.derived.imgW.toNat) : pixelColor s c ≠ .error .noByte := by
  by_cases ho : s.isOpen = true
  · obtain ⟨h1, h2, -, -⟩ := used_le_stride hi ho
    have hu : usedRowBytes s ≤ s.params.rowbufBytes := by omega
    unfold usedRowBytes at hu
    unfold pixelColor
    split
    · next e => exact ifInBuffer_ne _ (by rw [e] at hu; omega)
    · next e => exact ifInBuffer_ne _ (by rw [e] at hu; omega)
    · next e => exact ifInBuffer_ne _ (by rw [e] at hu; omega)
    · next e => exact ifInBuffer_ne _ (by rw [e] at hu; omega)
    · next e => exact ifInBuffer_ne _ (by rw [e] at hu; omega)
    · next e => exact ifInBuffer_ne _ (by rw [e] at hu; omega)
    · simp
  · rw [hi.lifecycle.2 (by simpa using ho)] at hc; exact absurd hc (Nat.not_lt_zero c)

theorem runRow_inv {row : Word} {n c : Nat} {s t : State} (hi : s.Inv) (hj : s.job = none) (hr : s.rsp = none)
    (ho : s.isOpen = true) (hrow : row.toNat < s.derived.imgH.toNat) (hn : c + n ≤ s.derived.imgW.toNat)
    (h : runRow row n c s = .next t) : t.Inv := by
  obtain ⟨more, k, h | ⟨m, e, h1, h2, h3, h⟩ | ⟨m, color, h1, h2, h3, h⟩⟩ := runRow_next h
  · rw [h]; exact State.Inv.succeed (hi.emitted hj more k) (by exact hj) _
  · rw [h]
    refine State.Inv.raiseError (hi.emitted hj more k) (by exact hj) ?_ _
    rcases pixelColor_error h3 with rfl | rfl <;> decide
  · rw [h]
    have := hi.emitted hj more k
    exact ⟨this.params, this.rams, this.err, this.rsp, this.lifecycle, fun j hj' => by
      cases hj'
      exact ⟨ho, hrow, by show m < s.derived.imgW.toNat; omega, hr, color, h3, rfl⟩⟩

/-- Each command keeps the invariant. -/
theorem exec_inv {i : Instr} {s t : State} (hi : s.Inv) (hj : s.job = none) (hr : s.rsp = none) (h : exec i s = .next t) : t.Inv := by
  have ill : (raiseError .illegalCommand 0 s).Inv := hi.raiseError hj (by decide) 0
  cases i with
  | nop => cases h; exact hi.succeed hj _
  | cfgWrite sel v =>
    simp only [exec, execCfgWrite] at h
    split at h
    · cases h; exact ill
    · next r hsel =>
      split at h
      · cases h; exact ill
      · next hg =>
        cases h
        refine State.Inv.succeed ?_ (by simpa using hj) 0
        have hh : (writeReg r v s).header = s.header := by cases r <;> first | rfl | cases hg
        exact ⟨by simpa using hi.params, by simpa [State.ramsOk] using hi.rams, by simpa using hi.err, by simpa using hi.rsp,
          by have := hi.lifecycle; unfold State.lifecycleOk at *; simpa [hh] using this, by simp [hj]⟩
      · split at h
        · cases h
          refine State.Inv.succeed ?_ (by simpa using hj) 0
          exact ⟨by simpa using hi.params, by simpa [State.ramsOk] using hi.rams, by simpa using hi.err, by simpa using hi.rsp,
            ⟨fun h => by simp at h, fun _ => rfl⟩, by simp [hj]⟩
        · next ho =>
          cases h
          refine State.Inv.succeed ?_ (by simpa using hj) 0
          exact ⟨by simpa using hi.params, by simpa [State.ramsOk] using hi.rams, by simpa using hi.err, by simpa using hi.rsp,
            ⟨fun h => absurd (by simpa using h) ho, fun h => by simpa using hi.lifecycle.2 (by simpa using h)⟩, by simp [hj]⟩
  | cfgRead sel =>
    simp only [exec, execCfgRead] at h
    split at h <;> cases h
    · exact ill
    · exact hi.succeed hj _
  | palWrite idx w =>
    cases h
    refine State.Inv.succeed ?_ (by exact hj) 0
    exact ⟨hi.params, ⟨hi.rams.1, setPalWord_wf idx w hi.rams.2⟩, hi.err, hi.rsp, hi.lifecycle, by simp [hj]⟩
  | palRead idx => cases h; exact hi.succeed hj _
  | rowbufWrite addr w =>
    simp only [exec, execRowbufWrite] at h
    split at h <;> cases h
    · next ok =>
      refine State.Inv.succeed ?_ (by exact hj) 0
      exact ⟨hi.params, ⟨memWriteWord_wf w hi.rams.1 ok, hi.rams.2⟩, hi.err, hi.rsp, hi.lifecycle, by simp [hj]⟩
    · exact hi.raiseError hj (by decide) 0
  | rowbufRead addr =>
    simp only [exec, execRowbufRead] at h
    split at h <;> cases h
    · exact hi.succeed hj _
    · exact hi.raiseError hj (by decide) 0
  | openBlock =>
    simp only [exec, execOpenBlock] at h
    split at h <;> cases h
    · next e he => exact State.Inv.raiseError (hi.closeState hj) (by exact hj) (deriveRegs_error he) 0
    · next d hd =>
      refine State.Inv.succeed ?_ (by exact hj) 0
      exact ⟨hi.params, hi.rams, hi.err, hi.rsp, ⟨fun _ => hd, fun h => by simp at h⟩, by simp [hj]⟩
  | closeBlock => cases h; exact State.Inv.succeed (hi.closeState hj) (by exact hj) 0
  | errClear =>
    cases h
    refine State.Inv.succeed ?_ (by exact hj) 0
    exact ⟨hi.params, hi.rams, by show legalErr 0; decide, hi.rsp, hi.lifecycle, by simp [hj]⟩
  | decodeRow row =>
    by_cases ho : s.isOpen = true
    · by_cases hh : row.toNat < s.derived.imgH.toNat
      · rw [decodeRow_run ho hh] at h
        exact runRow_inv hi hj hr ho hh (by omega) h
      · rw [decodeRow_range ho (by omega)] at h; cases h; exact hi.raiseError hj (by decide) 0
    · rw [decodeRow_closed row (by simpa using ho)] at h; cases h; exact hi.succeed hj _
  | decodePixel col =>
    simp only [exec, execDecodePixel] at h
    split at h
    · cases h; exact hi.raiseError hj (by decide) 0
    · split at h <;> cases h
      · next e he =>
        refine hi.raiseError hj ?_ 0
        rcases pixelColor_error he with rfl | rfl <;> decide
      · exact hi.succeed hj _
  | rowAddr row =>
    simp only [exec, execRowAddr] at h
    split at h <;> cases h
    · exact hi.raiseError hj (by decide) 0
    · exact hi.succeed hj _
  | quant r g b => cases h; exact hi.succeed hj _
  | mix a b w => cases h; exact hi.succeed hj _
  | palLookup idx =>
    simp only [exec, execPalLookup] at h
    split at h <;> cases h
    · next e he =>
      refine hi.raiseError hj ?_ 0
      unfold lookupPalette at he; split at he <;> cases he; decide
    · exact hi.succeed hj _
  | maskShift m =>
    simp only [exec, execMaskShift] at h
    split at h <;> cases h
    · next e he =>
      refine hi.raiseError hj ?_ 0
      unfold shiftOfMask at he; split at he <;> cases he; decide
    · exact hi.succeed hj _

/-- In a good state no command stops. -/
theorem exec_total {i : Instr} {s : State} (hi : s.Inv) : ∃ t, exec i s = .next t := by
  cases i with
  | nop => exact ⟨_, rfl⟩
  | cfgWrite sel v =>
    simp only [exec, execCfgWrite]
    split
    · exact ⟨_, rfl⟩
    · split
      · exact ⟨_, rfl⟩
      · exact ⟨_, rfl⟩
      · split <;> exact ⟨_, rfl⟩
  | cfgRead sel => simp only [exec, execCfgRead]; split <;> exact ⟨_, rfl⟩
  | palWrite idx w => exact ⟨_, rfl⟩
  | palRead idx => exact ⟨_, rfl⟩
  | rowbufWrite addr w => simp only [exec, execRowbufWrite]; split <;> exact ⟨_, rfl⟩
  | rowbufRead addr => simp only [exec, execRowbufRead]; split <;> exact ⟨_, rfl⟩
  | openBlock => simp only [exec, execOpenBlock]; split <;> exact ⟨_, rfl⟩
  | closeBlock => exact ⟨_, rfl⟩
  | errClear => exact ⟨_, rfl⟩
  | decodeRow row =>
    by_cases ho : s.isOpen = true
    · by_cases hh : row.toNat < s.derived.imgH.toNat
      · rw [decodeRow_run ho hh]
        exact runRow_total fun k _ hk => noByte_of_inv hi (by omega)
      · rw [decodeRow_range ho (by omega)]; exact ⟨_, rfl⟩
    · rw [decodeRow_closed row (by simpa using ho)]; exact ⟨_, rfl⟩
  | decodePixel col =>
    simp only [exec, execDecodePixel]
    split
    · exact ⟨_, rfl⟩
    · next hc =>
      split
      · next hn => exact absurd hn (noByte_of_inv hi (by omega))
      · exact ⟨_, rfl⟩
      · exact ⟨_, rfl⟩
  | rowAddr row => simp only [exec, execRowAddr]; split <;> exact ⟨_, rfl⟩
  | quant r g b => exact ⟨_, rfl⟩
  | mix a b w => exact ⟨_, rfl⟩
  | palLookup idx => simp only [exec, execPalLookup]; split <;> exact ⟨_, rfl⟩
  | maskShift m => simp only [exec, execMaskShift]; split <;> exact ⟨_, rfl⟩

end Sys2Proof.Machine
end

