-- ==== Sys2Proof/Tests/Slice0.lean ====
section
/-! SUPPORT. The session's own tests: what the checks refuse, words written out from 30_encoding.md, the one-step vectors of
95_test_vectors.md, and a witness for the hypotheses of every statement that has any. -/

open Sys2Proof Sys2Proof.Machine

namespace Sys2Proof.Tests

/-! ## Helpers -/

/-- The header group of an image without masks. -/
def header (bpp compression width height colors : Nat) : HeaderRegs :=
  { bpp := BitVec.ofNat 16 bpp
    compression := BitVec.ofNat 32 compression
    width := BitVec.ofNat 32 width
    height := BitVec.ofNat 32 height
    colorsUsed := BitVec.ofNat 32 colors
    mask := .zero
    pixelOffset := 0 }

/-- The state after reset with a header group. -/
def closed (h : HeaderRegs) : State := { State.reset with header := h }

/-- The response of a command, as two numbers. -/
def reply (i : Instr) (s : State) : Option (Nat × Nat) :=
  (Result.response? (exec i s)).map fun r => (r.status.toNat, r.data.toNat)

/-- The state after a command, its response taken. -/
def after (i : Instr) (s : State) : State :=
  match exec i s with
  | .next t => { t with rsp := none }
  | .fault _ => s
  | .refused _ => s

/-- An open image: palette words from index 0 on, row-buffer words from address 0 on. -/
def image (h : HeaderRegs) (pal : List Word) (words : List Word) : State :=
  after .openBlock
    { closed h with
      pal := (List.range pal.length).zip pal
      rb := Memory.setBytes [] 0 (words.flatMap wordBytes) }

/-- The records a command leaves with the sink, as numbers. -/
def emitted (i : Instr) (s : State) : List (Nat × Nat × Nat) :=
  (after i s).records.map fun r => (r.x.toNat, r.y.toNat, r.color.toNat)

/-- 4 bpp, 3 columns, 3 colors (95_test_vectors.md 2.4, rows 2 and 3); index 15 at column 2 is out of range. -/
def badNibble : State := image (header 4 0 3 1 3) [0, 0xFF000000, 0x00FF0000] [0x0000F021]

/-- 16 bpp, 2 columns, 1 row. -/
def direct16 : State := image (header 16 0 2 1 0) [] [0x1234F800]

/-- 24 bpp, 5 columns, 3 rows, PIXEL_OFFSET 0x36 (95_test_vectors.md 2.3). -/
def tall24 : State := image { header 24 0 5 3 0 with pixelOffset := 0x36 } [] []

/-- 32 bpp, 2 columns, background green (95_test_vectors.md 2.4). -/
def blended : State :=
  { image (header 32 0 2 1 0) [] [0xFF123456, 0x00123456] with draw := { DrawRegs.reset with bgcolor := 0x07E0 } }

/-- A row of `direct16` that waits at column 1. -/
def waiting : State := after (.decodeRow 0) { direct16 with sink := .records 1 }

/-! ## WellFormed and the assembler refuse -/

theorem test_params_standard : Params.standard.WellFormed := by decide

theorem test_params_not_multiple : ¬({ Params.standard with rowbufBytes := 6 } : Params).WellFormed := by decide

theorem test_params_zero : ¬({ Params.standard with rowbufBytes := 0 } : Params).WellFormed := by decide

theorem test_params_too_large : ¬({ Params.standard with rowbufBytes := 65540 } : Params).WellFormed := by decide

theorem test_asm_field_range : assembleLine Params.standard (.palRead 256) = .error (.fieldRange 256) := by rfl

theorem test_asm_addr_range : assembleLine Params.standard (.rowbufRead 65536) = .error (.addrRange 65536) := by rfl

theorem test_asm_channel_range : assembleLine Params.standard (.quant 256 0 0) = .error (.channelRange 256) := by rfl

theorem test_asm_color_range : assembleLine Params.standard (.mix 65536 0 0) = .error (.colorRange 65536) := by rfl

theorem test_asm_value_range :
    assembleLine Params.standard (.decodeRow 4294967296) = .error (.valueRange 4294967296) := by rfl

/-- R88: bytes grouped by four, the last word padded with zeros. -/
theorem test_asm_rowbuf_load : assembleLine Params.standard (.rowbufLoad 4 [0x11, 0x22, 0x33, 0x44, 0x55])
    = .ok [⟨0x05000004, 0x44332211⟩, ⟨0x05000008, 0x00000055⟩] := by rfl

/-- Log entry 16: a load of nothing is no command, and its operand is checked all the same. -/
theorem test_asm_load_nothing : assembleLine Params.standard (.rowbufLoad 65535 []) = .ok [] ∧
    assembleLine Params.standard (.rowbufLoad 65536 []) = .error (.addrRange 65536) ∧
    assembleLine Params.standard (.palLoad 255 []) = .ok [] ∧
    assembleLine Params.standard (.palLoad 256 []) = .error (.fieldRange 256) := ⟨rfl, rfl, rfl, rfl⟩

/-- R88: negative coordinates are encoded modulo 2^32. -/
theorem test_asm_set_origin : assembleLine Params.standard (.setOrigin (-1) 20)
    = .ok [⟨0x0100000B, 0xFFFFFFFF⟩, ⟨0x0100000C, 20⟩] := by rfl

/-- R88, R42: PAL_RGB under DOC_ABGR. -/
theorem test_asm_pal_rgb : assembleLine Params.standard (.palRgb 0 255 0 0)
    = .ok [⟨0x03000000, 0xFF000000⟩] := by rfl

/-! ## Decoding: words written out from 30_encoding.md R80 to R83 and R87 -/

theorem test_decode_nop : decode 0x00000000 0x12345678 = .ok .nop := by rfl

theorem test_decode_cfg_write : decode 0x0100000A 0xABCD1234 = .ok (.cfgWrite 0x0A 0xABCD1234) := by rfl

theorem test_decode_cfg_read : decode 0x02000013 0 = .ok (.cfgRead 0x13) := by rfl

theorem test_decode_pal_write : decode 0x030000FF 0xFFFFFF00 = .ok (.palWrite 255 0xFFFFFF00) := by rfl

theorem test_decode_pal_read : decode 0x04000005 0 = .ok (.palRead 5) := by rfl

theorem test_decode_rowbuf_write : decode 0x0500FFFC 0xFF0000FF = .ok (.rowbufWrite 0xFFFC 0xFF0000FF) := by rfl

theorem test_decode_rowbuf_read : decode 0x0600003C 0 = .ok (.rowbufRead 0x3C) := by rfl

theorem test_decode_open : decode 0x07000000 0 = .ok .openBlock := by rfl

theorem test_decode_close : decode 0x08000000 0 = .ok .closeBlock := by rfl

theorem test_decode_err_clear : decode 0x09000000 0 = .ok .errClear := by rfl

theorem test_decode_decode_row : decode 0x10000000 0xFFFFFFFF = .ok (.decodeRow 0xFFFFFFFF) := by rfl

theorem test_decode_decode_pixel : decode 0x11000000 1 = .ok (.decodePixel 1) := by rfl

theorem test_decode_row_addr : decode 0x12000000 2 = .ok (.rowAddr 2) := by rfl

theorem test_decode_quant : decode 0x20000000 0xAA123456 = .ok (.quant 0x12 0x34 0x56) := by rfl

theorem test_decode_mix : decode 0x21000080 0x001FF800 = .ok (.mix 0xF800 0x001F 128) := by rfl

theorem test_decode_pal_lookup : decode 0x22000002 0 = .ok (.palLookup 2) := by rfl

theorem test_decode_mask_shift : decode 0x23000000 0x0000FF00 = .ok (.maskShift 0x0000FF00) := by rfl

/-- R83, R84, 95_test_vectors.md 2.1: unassigned opcodes and words with a reserved bit set. -/
theorem test_decode_illegal :
    decode 0x0A000000 0 = .error (.unassignedOp 0x0A) ∧ decode 0xFF000000 0 = .error (.unassignedOp 0xFF) ∧
    decode 0x00000001 0 = .error (.reservedBits 0x00000001) ∧ decode 0x01000100 5 = .error (.reservedBits 0x01000100) ∧
    decode 0x21000164 0 = .error (.reservedBits 0x21000164) ∧ decode 0x05010000 0 = .error (.reservedBits 0x05010000) :=
  ⟨rfl, rfl, rfl, rfl, rfl, rfl⟩

/-- The model's masks and matches are the spec's table (R83). -/
theorem test_opcode_map : ∀ row ∈ Spec.opcodeMap, row.2.1 = row.1.matchBits ∧ row.2.2 = row.1.mask := by decide

/-- The host's hooks: DATA is bits 63..32. -/
theorem test_table_word : decodeTableWord 64 0x0000000501000002 = some (.cfgWrite 2 5) := by rfl

/-- A table word placed for fetch runs in the next step (R87, R102). -/
theorem test_fetch_word : Result.response? (step (State.reset.withFetchWord 32 0x02000010)) = some ⟨0, 0⟩ := by rfl

/-! ## One step of each command: the vectors of 95_test_vectors.md -/

theorem test_nop : reply .nop badNibble = some (0, 0) := by decide

theorem test_cfg_write_read_only : reply (.cfgWrite 0x10 5) State.reset = some (8, 0) ∧
    reply (.cfgWrite 0x0D 5) State.reset = some (8, 0) := by decide

theorem test_cfg_write_closes : (after (.cfgWrite 0x09 0) direct16).isOpen = false ∧
    (after (.cfgWrite 0x0A 0) direct16).isOpen = true := by decide

theorem test_cfg_read_truncated : reply (.cfgRead 0x00) (after (.cfgWrite 0x00 0x00010018) State.reset) = some (0, 0x18) ∧
    reply (.cfgRead 0x0A) (after (.cfgWrite 0x0A 0xABCD1234) State.reset) = some (0, 0x1234) := by decide

theorem test_cfg_read_reserved : reply (.cfgRead 0x0D) State.reset = some (8, 0) ∧
    reply (.cfgRead 0x1D) State.reset = some (8, 0) ∧ reply (.cfgRead 0x1C) State.reset = some (0, 0) := by decide

theorem test_palette : reply (.palRead 5) (after (.palWrite 5 0xCAFEBABE) State.reset) = some (0, 0xCAFEBABE) := by decide

theorem test_rowbuf_write : reply (.rowbufWrite 0x3C 7) State.reset = some (0, 0) ∧
    reply (.rowbufWrite 2 1) State.reset = some (6, 0) := by decide

theorem test_rowbuf_read : reply (.rowbufRead 0) (after (.rowbufWrite 0 0x44332211) State.reset) = some (0, 0x44332211) ∧
    reply (.rowbufRead 0x40) State.reset = some (6, 0) := by decide

theorem test_rowbuf_bytes : (after (.rowbufWrite 0 0x44332211) State.reset).rb
    = [(0, 0x11), (1, 0x22), (2, 0x33), (3, 0x44)] := by decide

/-- 95_test_vectors.md 2.2: the checks of OPEN, in order. -/
theorem test_open_checks :
    reply .openBlock (closed (header 8 1 4 2 0)) = some (3, 0) ∧
    reply .openBlock (closed (header 2 0 4 2 0)) = some (3, 0) ∧
    reply .openBlock (closed (header 8 0 0xFFFFFFFF 0xFFFFFFFF 0)) = some (3, 0) ∧
    reply .openBlock (closed (header 8 0 0xFFFFFFFF 1 0)) = some (1, 0) ∧
    reply .openBlock (closed (header 8 0 4 2 257)) = some (1, 0) ∧
    reply .openBlock (closed (header 32 3 1 1 0)) = some (1, 0) ∧
    reply .openBlock (closed (header 32 0 17 1 0)) = some (7, 0) := by decide

/-- 95_test_vectors.md 2.2: what OPEN derives. -/
theorem test_open_derives :
    reply (.cfgRead 0x14) (image (header 8 0 4 2 256) [] []) = some (0, 0x100) ∧
    reply (.cfgRead 0x14) (image (header 4 0 4 2 0) [] []) = some (0, 0x10) ∧
    reply (.cfgRead 0x14) (image (header 24 0 4 2 999) [] []) = some (0, 0) ∧
    reply (.cfgRead 0x13) (image (header 32 0 16 1 0) [] []) = some (0, 0x40) ∧
    reply (.cfgRead 0x15) (image (header 32 0 1 1 0) [] []) = some (0, 0x10) ∧
    reply .openBlock (closed (header 24 3 1 1 0)) = some (0, 0) := by decide

theorem test_close : (after .closeBlock direct16).isOpen = false ∧
    reply (.cfgRead 0x13) (after .closeBlock direct16) = some (0, 0) ∧
    reply (.cfgRead 0x00) (after .closeBlock direct16) = some (0, 16) := by decide

/-- First error wins, and ERR_CLEAR clears (R202, R109). -/
theorem test_err_clear :
    reply (.cfgRead 0x10) (after (.rowAddr 0) (after (.cfgWrite 0x10 5) State.reset)) = some (0, 0x800) ∧
    reply (.cfgRead 0x10) (after .errClear (after (.rowAddr 0) State.reset)) = some (0, 0) := by decide

/-- 95_test_vectors.md 2.4, row 2: index 15 at column 2 is out of range. -/
theorem test_decode_row_bad_index : reply (.decodeRow 0) badNibble = some (4, 2) ∧
    emitted (.decodeRow 0) badNibble = [(0, 0, 0x07E0), (1, 0, 0xF800)] := by decide

/-- 95_test_vectors.md 2.4: coordinates wrap (D18). -/
theorem test_decode_row_wraps :
    emitted (.decodeRow 0)
      { image (header 16 0 2 1 0) [] [0] with draw := { bgcolor := 0, originX := 0x7FFFFFFF, originY := 0xFFFFFFFF } }
      = [(0x7FFFFFFF, 0xFFFFFFFF, 0), (0x80000000, 0xFFFFFFFF, 0)] := by decide

/-- 95_test_vectors.md P2: 1 bpp, the most significant bit is the leftmost pixel. -/
theorem test_decode_row_one_bit :
    (emitted (.decodeRow 0) (image (header 1 0 8 1 0) [0, 0xFFFFFF00] [0x000000B0])).map (fun r => r.2.2)
      = [0xFFFF, 0, 0xFFFF, 0xFFFF, 0, 0, 0, 0] := by decide

/-- 95_test_vectors.md 2.4: 24 bpp bytes are B, G, R. -/
theorem test_decode_row_24 :
    emitted (.decodeRow 0) (image (header 24 0 2 1 0) [] [0x56123456, 0x00001234])
      = [(0, 0, 0x11AA), (1, 0, 0x11AA)] := by decide

theorem test_decode_pixel : reply (.decodePixel 1) direct16 = some (0, 0x1234) ∧
    reply (.decodePixel 2) direct16 = some (5, 0) ∧ reply (.decodePixel 2) badNibble = some (4, 0) := by decide

/-- 95_test_vectors.md 2.4: 32 bpp blends, and the masks that overlap (D9). -/
theorem test_decode_pixel_32 : reply (.decodePixel 0) blended = some (0, 0x11AA) ∧
    reply (.decodePixel 1) blended = some (0, 0x07E0) ∧
    reply (.decodePixel 0)
      (image { header 32 3 1 1 0 with mask := ⟨0x0000FFF0, 0x00F0F000, 0x00000001, 0xFF000000⟩ } [] [0xFF345678])
      = some (0, 0x6020) := by decide

/-- 95_test_vectors.md 2.3. -/
theorem test_row_addr : reply (.rowAddr 0) tall24 = some (0, 0x56) ∧ reply (.rowAddr 2) tall24 = some (0, 0x36) ∧
    reply (.rowAddr 3) tall24 = some (5, 0) ∧ reply (.rowAddr 0xFFFFFFFF) tall24 = some (5, 0) := by decide

/-- 95_test_vectors.md 2.3: the offset wraps (D19). -/
theorem test_row_addr_wraps :
    reply (.rowAddr 0) (image { header 32 0 16 2 0 with pixelOffset := 0xFFFFFFF0 } [] []) = some (0, 0x30) := by decide

/-- 95_test_vectors.md E4, 2.5. -/
theorem test_quant : reply (.quant 0xF7 0xFB 0xF7) State.reset = some (0, 0xF7DE) ∧
    reply (.quant 255 0 0) State.reset = some (0, 0xF800) ∧ reply (.quant 8 4 8) State.reset = some (0, 0x0821) := by decide

/-- 95_test_vectors.md 2.5: both roundings. -/
theorem test_mix : reply (.mix 0x1234 0xABCD 100) State.reset = some (0, 0x4AB1) ∧
    reply (.mix 0x1234 0xABCD 100)
      (State.resetWith { Params.standard with mixRounding := .oneFloor }) = some (0, 0x4AD1) ∧
    reply (.mix 0xFFFF 0xFFFF 128) State.reset = some (0, 0xF7DE) := by decide

/-- 95_test_vectors.md 2.5: both layouts, and the index at PAL_SIZE. -/
theorem test_pal_lookup :
    reply (.palLookup 0) (image (header 8 0 1 1 2) [0x12345600, 0xFF000000] []) = some (0, 0x11AA) ∧
    reply (.palLookup 2) (image (header 8 0 1 1 2) [0x12345600, 0xFF000000] []) = some (4, 0) ∧
    reply (.palLookup 0)
      { image (header 8 0 1 1 2) [0x00123456] [] with params := { Params.standard with paletteLayout := .bmpBgrx } }
      = some (0, 0x11AA) := by decide

/-- 95_test_vectors.md E6. -/
theorem test_mask_shift : reply (.maskShift 0x0000FF00) State.reset = some (0, 8) ∧
    reply (.maskShift 0xFF000000) State.reset = some (0, 0x18) ∧ reply (.maskShift 0) State.reset = some (1, 0) := by decide

/-- 95_test_vectors.md E2. -/
theorem test_stride : stride 24 1 = 4 ∧ stride 24 4 = 12 ∧ stride 1 9 = 4 ∧ stride 1 33 = 8 ∧ stride 4 9 = 8 ∧
    stride 32 16 = 64 ∧ stride 32 17 = 68 ∧ stride 8 0 = 0 := by decide

/-- 95_test_vectors.md 2.6: a stopped sink holds the row; reset abandons it. -/
theorem test_waiting_row : waiting.job.map RowJob.col = some 1 ∧ waiting.records.length = 1 ∧
    (Result.next? (step { waiting with rst := true })).map State.job = some none := by decide

/-! ## Witnesses: a state and operands that meet the hypotheses of each statement -/

/-- The state after reset with a command on the port. -/
def asked (c : Command) : State := { State.reset with cmds := [c] }

theorem reset_inv : State.reset.Inv where
  params := by decide
  rams := by decide
  err := by decide
  rsp := fun r h => by cases h
  lifecycle := ⟨fun h => (by cases h), fun _ => rfl⟩
  job := fun j h => by cases h

theorem direct16_inv : direct16.Inv where
  params := by decide
  rams := by decide
  err := by decide
  rsp := fun r h => by cases h
  lifecycle := ⟨fun _ => rfl, fun h => absurd h (by decide)⟩
  job := fun j h => by cases h

theorem badNibble_inv : badNibble.Inv where
  params := by decide
  rams := by decide
  err := by decide
  rsp := fun r h => by cases h
  lifecycle := ⟨fun _ => rfl, fun h => absurd h (by decide)⟩
  job := fun j h => by cases h

/-- A row that waits meets the invariant too. -/
theorem waiting_inv : waiting.Inv where
  params := by decide
  rams := by decide
  err := by decide
  rsp := fun r h => by cases h
  lifecycle := ⟨fun _ => rfl, fun h => absurd h (by decide)⟩
  job := fun j h => by
    cases h
    exact ⟨by decide, by decide, by decide, rfl, 0x1234, rfl, rfl⟩

theorem witness_EncodeOfDecode : decode 0x00000000 0x12345678 = .ok .nop ∧ (encode .nop).data ≠ 0x12345678 :=
  ⟨rfl, by decide⟩

theorem witness_DecodeSelectsByMaskAndMatch :
    (Opcode.mix, 0x21000000, 0xFFFFFF00) ∈ Spec.opcodeMap ∧ (0x210000FF : Word) &&& 0xFFFFFF00 = 0x21000000 ∧
    (0x210001FF : Word) &&& 0xFFFFFF00 ≠ 0x21000000 := by decide

theorem witness_IllegalWordRaisesIllegalCommand :
    (asked ⟨0x00000001, 0⟩).rst = false ∧ (asked ⟨0x00000001, 0⟩).rsp = none ∧ (asked ⟨0x00000001, 0⟩).job = none ∧
    (asked ⟨0x00000001, 0⟩).cmds = ⟨0x00000001, 0⟩ :: [] ∧
    ∀ row ∈ Spec.opcodeMap, (0x00000001 : Word) &&& row.2.2 ≠ row.2.1 := by decide

theorem witness_StepRunsTheDecodedCommand :
    (asked ⟨0x01000002, 16⟩).rst = false ∧ (asked ⟨0x01000002, 16⟩).rsp = none ∧ (asked ⟨0x01000002, 16⟩).job = none ∧
    (asked ⟨0x01000002, 16⟩).cmds = ⟨0x01000002, 16⟩ :: [] ∧ decode 0x01000002 16 = .ok (.cfgWrite 2 16) :=
  ⟨rfl, rfl, rfl, rfl, rfl⟩

theorem witness_ResponseIsTakenBeforeTheNextCommand :
    ∃ s : State, s.rst = false ∧ s.rsp = some ⟨0, 0⟩ ∧ s.rspReady = true ∧
      { s with rspReady := false }.rsp = some ⟨0, 0⟩ := ⟨succeed 0 State.reset, rfl, rfl, rfl, rfl⟩

theorem witness_IdleBlockChangesNothing :
    direct16.rst = false ∧ direct16.rsp = none ∧ direct16.job = none ∧ direct16.cmds = [] := ⟨rfl, rfl, rfl, rfl⟩

theorem witness_StoppedSinkHangsTheRow :
    waiting.rst = false ∧ waiting.rsp = none ∧ waiting.job.isSome = true ∧ waiting.sink = .records 0 :=
  ⟨rfl, rfl, rfl, rfl⟩

theorem witness_ResetInputEffects : ({ waiting with rst := true } : State).rst = true := rfl

theorem witness_ResetMeetsTheInvariant : ({ Params.standard with rowbufBytes := 65536 } : Params).WellFormed ∧
    ({ Params.standard with rowbufBytes := 4 } : Params).WellFormed := by decide

theorem witness_StepKeepsTheInvariant : ∃ t, waiting.Inv ∧ step { waiting with sink := .always } = .next t :=
  ⟨_, waiting_inv, rfl⟩

theorem witness_GoodStatesAlwaysStep : waiting.Inv ∧ direct16.Inv ∧ badNibble.Inv :=
  ⟨waiting_inv, direct16_inv, badNibble_inv⟩

theorem witness_DerivedRegisterRanges : direct16.Inv ∧ direct16.derived.stride = 4 := ⟨direct16_inv, by decide⟩

theorem witness_ExtractorsStayInTheRowBuffer : direct16.Inv ∧ direct16.isOpen = true ∧ 1 < direct16.derived.imgW.toNat :=
  ⟨direct16_inv, by decide, by decide⟩

theorem witness_OnlyIndexedDepthsCanFail : badNibble.Inv ∧ badNibble.isOpen = true ∧
    2 < badNibble.derived.imgW.toNat ∧ pixelColor badNibble 2 = .error (.error .outOfRangeIndex) :=
  ⟨badNibble_inv, by decide, by decide, rfl⟩

/-- Each clause at both ends of its range: 0x00 and 0x09, open and closed; 0x0A and 0x0C; 0x0D and 0xFF. -/
theorem witness_CfgWriteResult :
    ((0x00 : Byte).toNat ≤ 0x09 ∧ (0x09 : Byte).toNat ≤ 0x09 ∧ direct16.isOpen = true ∧ State.reset.isOpen = false) ∧
    (0x0A ≤ (0x0A : Byte).toNat ∧ (0x0C : Byte).toNat ≤ 0x0C) ∧ 0x0D ≤ (0x0D : Byte).toNat ∧ 0x0D ≤ (0xFF : Byte).toNat := by
  decide

theorem witness_CfgWriteThenRead : ∃ t, (0x0C : Byte).toNat ≤ 0x0C ∧ exec (.cfgWrite 0x0C 5) State.reset = .next t :=
  ⟨_, by decide, rfl⟩

/-- Each check of R106 fails first on some header group; and each clause of a successful OPEN has a header group. -/
theorem witness_OpenResult :
    Spec.openError Params.standard (header 8 1 4 2 0) = some 3 ∧ Spec.openError Params.standard (header 7 0 4 2 0) = some 3 ∧
    Spec.openError Params.standard (header 8 0 4 0x80000000 0) = some 3 ∧
    Spec.openError Params.standard (header 8 0 0x80000000 2 0) = some 1 ∧
    Spec.openError Params.standard (header 8 0 4 2 257) = some 1 ∧
    Spec.openError Params.standard (header 32 3 1 1 0) = some 1 ∧
    Spec.openError Params.standard (header 32 0 17 1 0) = some 7 ∧
    Spec.openError Params.standard (header 16 0 32 1 0) = none ∧ Spec.openError Params.standard (header 8 0 4 2 256) = none ∧
    Spec.openError Params.standard (header 8 0 4 2 0) = none ∧
    Spec.openError Params.standard { header 32 3 1 1 0 with mask := ⟨1, 2, 4, 0x80000000⟩ } = none := by decide

theorem witness_ClosedBlockCommands : State.reset.Inv ∧ State.reset.isOpen = false := ⟨reset_inv, rfl⟩

theorem witness_StrideIsTheLeastPaddedLength : 8 % 4 = 0 ∧ 1 * 33 ≤ 8 * 8 ∧ stride 1 33 = 8 := by decide

theorem witness_RowAddrResult : (2 : Word).toNat < tall24.derived.imgH.toNat ∧
    tall24.derived.imgH.toNat ≤ (3 : Word).toNat := by decide

theorem witness_RowsAreStoredBottomUp : ((2 : Word).toNat < tall24.derived.imgH.toNat ∧ (2 : Word) + 1 = tall24.derived.imgH) ∧
    (1 : Word).toNat + 1 < tall24.derived.imgH.toNat := by decide

theorem witness_RowbufWriteResult :
    (0x3C : BitVec 16).toNat % 4 = 0 ∧ (0x3C : BitVec 16).toNat + 4 ≤ State.reset.params.rowbufBytes := by decide

theorem witness_RowbufReadResult :
    (0 : BitVec 16).toNat % 4 = 0 ∧ (0 : BitVec 16).toNat + 4 ≤ State.reset.params.rowbufBytes := by decide

theorem witness_BadWordAddress : (0x3D : BitVec 16).toNat % 4 ≠ 0 ∧
    State.reset.params.rowbufBytes < (0x40 : BitVec 16).toNat + 4 ∧ (0x40 : BitVec 16).toNat % 4 = 0 := by decide

theorem witness_RowbufWriteThenRead : ∃ t, (0x3C : BitVec 16).toNat % 4 = 0 ∧
    (0x3C : BitVec 16).toNat + 4 ≤ State.reset.params.rowbufBytes ∧ exec (.rowbufWrite 0x3C 7) State.reset = .next t :=
  ⟨_, by decide, by decide, rfl⟩

/-- Column 1 has the last good index, column 2 one past the palette. -/
theorem witness_DecodePixelIndexed : badNibble.header.bpp.toNat ∈ [1, 4, 8] ∧
    (2 : Word).toNat < badNibble.derived.imgW.toNat ∧
    badNibble.header.bpp.toNat * (2 : Word).toNat / 8 < badNibble.params.rowbufBytes ∧
    (1 : Byte).toNat = Spec.paletteIndex badNibble 4 1 ∧ (1 : Byte).toNat < badNibble.derived.palSize.toNat ∧
    (15 : Byte).toNat = Spec.paletteIndex badNibble 4 2 ∧ badNibble.derived.palSize.toNat ≤ (15 : Byte).toNat := by decide

theorem witness_DecodePixelDirect : (1 : Word).toNat < direct16.derived.imgW.toNat ∧ direct16.header.bpp = 16 ∧
    2 * (1 : Word).toNat + 2 ≤ direct16.params.rowbufBytes ∧ (4 : Word).toNat < tall24.derived.imgW.toNat ∧
    tall24.header.bpp = 24 ∧ 3 * (4 : Word).toNat + 3 ≤ tall24.params.rowbufBytes := by decide

theorem witness_DecodePixelBlended : blended.header.bpp = 32 ∧ (1 : Word).toNat < blended.derived.imgW.toNat ∧
    4 * (1 : Word).toNat + 4 ≤ blended.params.rowbufBytes ∧
    0x12 = Spec.channel (Spec.pixel32 blended 1) blended.derived.emask.r blended.derived.shift.r ∧
    0x34 = Spec.channel (Spec.pixel32 blended 1) blended.derived.emask.g blended.derived.shift.g ∧
    0x56 = Spec.channel (Spec.pixel32 blended 1) blended.derived.emask.b blended.derived.shift.b ∧
    0x00 = Spec.channel (Spec.pixel32 blended 1) blended.derived.emask.a blended.derived.shift.a ∧
    (0x11AA : Color).toNat = Spec.quantized 0x12 0x34 0x56 ∧ blended.params.blendOrder = .bgIsA ∧
    ({ blended.params with blendOrder := .pixelIsA } : Params).blendOrder = .pixelIsA := by decide

theorem witness_DecodeOutsideTheImage : direct16.derived.imgW.toNat ≤ (2 : Word).toNat ∧ direct16.isOpen = true ∧
    direct16.derived.imgH.toNat ≤ (1 : Word).toNat := by decide

theorem direct16_colors (c : Nat) (h : c < direct16.derived.imgW.toNat) :
    pixelColor direct16 c = .ok (if c = 0 then 0xF800 else 0x1234) := by
  have h2 : c < 2 := h
  obtain rfl | rfl : c = 0 ∨ c = 1 := by omega
  · rfl
  · rfl

theorem witness_DecodeRowEmitsEveryColumn : direct16.isOpen = true ∧ (0 : Word).toNat < direct16.derived.imgH.toNat ∧
    (∀ c, c < direct16.derived.imgW.toNat → pixelColor direct16 c = .ok (if c = 0 then 0xF800 else 0x1234)) ∧
    direct16.sink.takes direct16.derived.imgW.toNat = true :=
  ⟨by decide, by decide, direct16_colors, by decide⟩

theorem witness_DecodeRowStopsAtTheBadColumn : badNibble.isOpen = true ∧ (0 : Word).toNat < badNibble.derived.imgH.toNat ∧
    2 < badNibble.derived.imgW.toNat ∧ (∀ c, c < 2 → pixelColor badNibble c = .ok (if c = 0 then 0x07E0 else 0xF800)) ∧
    pixelColor badNibble 2 = .error (.error .outOfRangeIndex) ∧ badNibble.sink.takes 2 = true := by
  refine ⟨by decide, by decide, by decide, fun c h => ?_, rfl, by decide⟩
  obtain rfl | rfl : c = 0 ∨ c = 1 := by omega
  · rfl
  · rfl

theorem witness_DecodeRowWaitsForTheSink : direct16.isOpen = true ∧ (0 : Word).toNat < direct16.derived.imgH.toNat ∧
    1 < direct16.derived.imgW.toNat ∧
    (∀ c, c ≤ 1 → pixelColor direct16 c = .ok (if c = 0 then 0xF800 else 0x1234)) ∧
    ({ direct16 with sink := .records 1 } : State).sink = .records 1 :=
  ⟨by decide, by decide, by decide, fun c h => direct16_colors c (Nat.lt_succ_of_le h), rfl⟩

theorem witness_SinkDelayCannotChangeARow : ∃ t, direct16.rst = false ∧ direct16.rsp = none ∧ direct16.job = none ∧
    exec (.decodeRow 0) { direct16 with sink := .records 1 } = .next t ∧ t.job ≠ none :=
  ⟨_, rfl, rfl, rfl, rfl, by decide⟩

theorem witness_MaskShiftResult : (0x80000000 : Word) ≠ 0 ∧ (1 : Word) ≠ 0 := by decide

theorem witness_PalLookupResult : (2 : Byte).toNat < badNibble.derived.palSize.toNat ∧
    badNibble.derived.palSize.toNat ≤ (3 : Byte).toNat := by decide

theorem witness_QuantizationBounds : (0xF7 : Byte) ≤ 0xF8 ∧ quantize 0xF8 0xFC 0xF8 = quantize 0xFF 0xFF 0xFF := by decide

theorem witness_BlendFixedPoints : Params.standard.blendOrder = .bgIsA ∧
    ({ Params.standard with blendOrder := .pixelIsA } : Params).blendOrder = .pixelIsA := ⟨rfl, rfl⟩

/-- An error while another is held, a success, and ERR_CLEAR. -/
theorem witness_FirstErrorWins : ∃ t u v, State.reset.rsp = none ∧
    exec (.rowAddr 0) { State.reset with err := 8 } = .next t ∧ t.rsp = some ⟨5, 0⟩ ∧
    exec .nop State.reset = .next u ∧ u.rsp = some ⟨0, 0⟩ ∧
    exec .errClear { State.reset with err := 8 } = .next v ∧ v.rsp = some ⟨0, 0⟩ :=
  ⟨_, _, _, rfl, rfl, rfl, rfl, rfl, rfl, rfl⟩

theorem witness_OnlyErrClearOrResetClears : ∃ t u,
    step { asked ⟨0x09000000, 0⟩ with err := 8 } = .next t ∧ errPending { asked ⟨0x09000000, 0⟩ with err := 8 } = true ∧
    errPending t = false ∧ step { State.reset with err := 8, rst := true } = .next u ∧ errPending u = false :=
  ⟨_, _, rfl, rfl, rfl, rfl, rfl⟩

/-- The three clauses: OPEN, DECODE_ROW and any other command fail. -/
theorem witness_FailingCommandsChangeNothing : ∃ t u v, State.reset.rsp = none ∧
    exec .openBlock State.reset = .next t ∧ t.rsp = some ⟨3, 0⟩ ∧
    badNibble.rsp = none ∧ exec (.decodeRow 0) badNibble = .next u ∧ u.rsp = some ⟨4, 2⟩ ∧
    exec (.rowbufWrite 2 1) State.reset = .next v ∧ v.rsp = some ⟨6, 0⟩ :=
  ⟨_, _, _, rfl, rfl, rfl, rfl, rfl, rfl, rfl, rfl⟩

/-- Both endings: an answer, and a row that waits. -/
theorem witness_OneResponsePerCommand : ∃ t u, State.reset.rsp = none ∧ State.reset.job = none ∧
    exec .nop State.reset = .next t ∧ t.rsp = some ⟨0, 0⟩ ∧
    exec (.decodeRow 0) { direct16 with sink := .records 1 } = .next u ∧ u.rsp = none ∧ u.job ≠ none :=
  ⟨_, _, rfl, rfl, rfl, rfl, rfl, rfl, by decide⟩

theorem witness_AnsweringCommandsFrame : ∃ t, (Instr.palRead 0).opcode
    ∈ [.nop, .cfgRead, .palRead, .rowbufRead, .decodePixel, .rowAddr, .quant, .mix, .palLookup, .maskShift] ∧
    exec (.palRead 0) direct16 = .next t := ⟨_, by decide, rfl⟩

/-- A header-group write, a draw-group write and ERR_CLEAR. -/
theorem witness_LifecycleCommandsFrame : ∃ t u v,
    (Instr.cfgWrite 0 8).opcode ∈ [.cfgWrite, .openBlock, .closeBlock, .errClear] ∧
    exec (.cfgWrite 0 8) direct16 = .next t ∧ Reg.WIDTH.sel ≠ 0 ∧ Reg.WIDTH.group ≠ .derived ∧
    0x0A ≤ (0x0A : Byte).toNat ∧ exec (.cfgWrite 0x0A 8) direct16 = .next u ∧ exec .errClear direct16 = .next v :=
  ⟨_, _, _, by decide, rfl, by decide, by decide, by decide, rfl, rfl⟩

theorem witness_DecodeRowFrame : ∃ t, exec (.decodeRow 0) direct16 = .next t := ⟨_, rfl⟩

theorem witness_OnlyLifecycleCommandsWriteOpen : ∃ t,
    step { direct16 with cmds := [⟨0x08000000, 0⟩] } = .next t ∧ t.isOpen ≠ direct16.isOpen := ⟨_, rfl, by decide⟩

theorem witness_OnlyDecodeRowEmits : ∃ t,
    step { direct16 with cmds := [⟨0x10000000, 0⟩] } = .next t ∧ t.records ≠ direct16.records := ⟨_, rfl, by decide⟩

theorem witness_OnlyTheHostWritesTheRams : ∃ t u,
    step { direct16 with cmds := [⟨0x05000000, 0x12345678⟩] } = .next t ∧ direct16.rst = false ∧
    byteAt t 0 ≠ byteAt direct16 0 ∧
    step { badNibble with cmds := [⟨0x03000000, 0x12345678⟩] } = .next u ∧ palWord u 0 ≠ palWord badNibble 0 :=
  ⟨_, _, rfl, rfl, by decide, rfl, by decide⟩

theorem witness_PaddingCannotChangeAPixel : ∃ t u : State, direct16.Inv ∧
    (∀ a, a < usedRowBytes direct16 → byteAt { direct16 with rb := Ram.set direct16.rb 4 0xFF } a = byteAt direct16 a) ∧
    exec (.decodePixel 1) direct16 = .next t ∧ exec (.decodeRow 0) direct16 = .next u :=
  ⟨_, _, direct16_inv, fun a h => by
    have h4 : a < 4 := h
    unfold byteAt
    rw [Ram.get_set_other _ _ (by omega)], rfl, rfl⟩

/-- The row's last used byte holds the pad nibble 0xF past column 2; the other buffer holds 0xA there. -/
def padNibble : State := image (header 4 0 3 1 3) [0, 0xFF000000, 0x00FF0000] [0x00000F21]

theorem padNibble_inv : padNibble.Inv where
  params := by decide
  rams := by decide
  err := by decide
  rsp := fun r h => by cases h
  lifecycle := ⟨fun _ => rfl, fun h => absurd h (by decide)⟩
  job := fun j h => by cases h

theorem witness_BitsPastTheLastColumnCannotChangeAPixel : ∃ t u : State, padNibble.Inv ∧
    byteAt { padNibble with rb := Ram.set padNibble.rb 1 0x0A } 1 ≠ byteAt padNibble 1 ∧ 1 < usedRowBytes padNibble ∧
    (∀ n, n < padNibble.header.bpp.toNat * padNibble.derived.imgW.toNat →
      (byteAt { padNibble with rb := Ram.set padNibble.rb 1 0x0A } (n / 8)).getLsbD (7 - n % 8)
        = (byteAt padNibble (n / 8)).getLsbD (7 - n % 8)) ∧
    exec (.decodePixel 2) padNibble = .next t ∧ exec (.decodeRow 0) padNibble = .next u := by
  refine ⟨_, _, padNibble_inv, by decide, by decide, fun n h => ?_, rfl, rfl⟩
  have h12 : n < 12 := h
  have all : ∀ n : Fin 12, (byteAt { padNibble with rb := Ram.set padNibble.rb 1 0x0A } (n / 8)).getLsbD (7 - n % 8)
      = (byteAt padNibble (n / 8)).getLsbD (7 - n % 8) := by decide
  exact all ⟨n, h12⟩

theorem witness_LoadedRowsDecodeAlikeOnEveryBlock : ∃ t u : State, badNibble.Inv ∧ paletteLoaded badNibble ∧
    rowLoaded badNibble ∧ exec (.decodePixel 1) badNibble = .next t ∧ exec (.decodeRow 0) badNibble = .next u := by
  refine ⟨_, _, badNibble_inv, fun i h => ?_, fun a h => ?_, rfl, rfl⟩
  · have h3 : i < 3 := h
    obtain rfl | rfl | rfl : i = 0 ∨ i = 1 ∨ i = 2 := by omega
    all_goals rfl
  · have h2 : a < 2 := h
    obtain rfl | rfl : a = 0 ∨ a = 1 := by omega
    all_goals rfl

theorem witness_NothingReadsBlockBaseOrResetStyle : ∃ t, step (asked ⟨0x07000000, 0⟩) = .next t := ⟨_, rfl⟩

theorem witness_AssembledCommandsAreLegal :
    assembleLine Params.standard (.rowbufLoad 0 [1]) = .ok [⟨0x05000000, 1⟩] := by rfl

end Sys2Proof.Tests
end

section
/-! PROOFS. 00_scope.md: the state after reset meets the invariant, and BLOCK_BASE and RESET_STYLE have no effect. The
second is a commuting square, per operation: moving a block to another bus base and reset style and then running it gives
what running it and then moving it gives. -/

namespace Sys2Proof.Machine

open Sys2Proof

/-! ## The state after reset -/

/-- The state after reset is good for all parameters that R5 admits (R40, R41, R43, R230). -/
theorem resetWith_inv {p : Params} (hp : p.WellFormed) : (State.resetWith p).Inv where
  params := hp
  rams := resetWith_wf p
  err := (by decide : legalErr 0)
  rsp _ h := nomatch h
  lifecycle := ⟨fun h => absurd h Bool.false_ne_true, fun _ => rfl⟩
  job _ h := nomatch h

theorem standard_wellFormed : Params.standard.WellFormed := by decide

/-- Settles O12: the reset state is closed and unwritten, with no error, response or row; R5 admits the standard
parameters. -/
theorem resetMeetsTheInvariant : Obligations.ResetMeetsTheInvariant :=
  ⟨fun _ hp => resetWith_inv hp, resetWith_inv standard_wellFormed⟩

/-! ## BLOCK_BASE and RESET_STYLE -/

/-- The same block with another BLOCK_BASE and RESET_STYLE. -/
def rehost (base : Option Nat) (style : ResetStyle) (s : State) : State :=
  { s with params := { s.params with blockBase := base, resetStyle := style } }

/-- A result with its next state, if it is one, changed by `f`. -/
def Result.mapNext (f : State → State) : Result → Result
  | .next t => .next (f t)
  | .fault r => .fault r
  | .refused r => .refused r

@[simp] theorem Result.mapNext_next (f : State → State) (t : State) :
    Result.mapNext f (.next t) = .next (f t) := rfl

@[simp] theorem Result.mapNext_fault (f : State → State) (r : Fault) :
    Result.mapNext f (.fault r) = .fault r := rfl

section
variable (base : Option Nat) (style : ResetStyle) (s : State)

@[simp] theorem rehost_header : (rehost base style s).header = s.header := rfl
@[simp] theorem rehost_isOpen : (rehost base style s).isOpen = s.isOpen := rfl
@[simp] theorem rehost_derived : (rehost base style s).derived = s.derived := rfl
@[simp] theorem rehost_cmds : (rehost base style s).cmds = s.cmds := rfl
@[simp] theorem rehost_rspReady : (rehost base style s).rspReady = s.rspReady := rfl
@[simp] theorem rehost_rsp : (rehost base style s).rsp = s.rsp := rfl
@[simp] theorem rehost_sink : (rehost base style s).sink = s.sink := rfl
@[simp] theorem rehost_job : (rehost base style s).job = s.job := rfl
@[simp] theorem rehost_rst : (rehost base style s).rst = s.rst := rfl

/-! The reads and checks of the commands take the same value after the change. -/

@[simp] theorem readReg_rehost (r : Reg) : readReg (rehost base style s) r = readReg s r := by cases r <;> rfl

@[simp] theorem wordAddrOk_rehost (addr : BitVec 16) : wordAddrOk (rehost base style s) addr = wordAddrOk s addr := rfl

@[simp] theorem memRead_rehost (a n : Nat) : memRead (rehost base style s) a n = memRead s a n := rfl

@[simp] theorem lookupPalette_rehost (i : Byte) : lookupPalette (rehost base style s) i = lookupPalette s i := rfl

@[simp] theorem pixelColor_rehost (c : Nat) : pixelColor (rehost base style s) c = pixelColor s c := rfl

@[simp] theorem deriveRegs_rehost (h : HeaderRegs) :
    deriveRegs (rehost base style s).params h = deriveRegs s.params h := rfl

/-! What a command writes commutes with the change: the responses, the registers, the row buffer, the ports and reset. -/

@[simp] theorem succeed_rehost (data : Word) :
    succeed data (rehost base style s) = rehost base style (succeed data s) := rfl

@[simp] theorem raiseError_rehost (e : ErrorKind) (data : Word) :
    raiseError e data (rehost base style s) = rehost base style (raiseError e data s) := rfl

@[simp] theorem closeState_rehost : closeState (rehost base style s) = rehost base style (closeState s) := rfl

@[simp] theorem writeReg_rehost (r : Reg) (v : Word) :
    writeReg r v (rehost base style s) = rehost base style (writeReg r v s) := by cases r <;> rfl

@[simp] theorem memWriteWord_rehost (a : Nat) (v : Word) :
    memWriteWord a v (rehost base style s) = rehost base style (memWriteWord a v s) := rfl

@[simp] theorem takeResponse_rehost (r : Response) :
    takeResponse r (rehost base style s) = rehost base style (takeResponse r s) := rfl

@[simp] theorem assertReset_rehost : assertReset (rehost base style s) = rehost base style (assertReset s) := rfl

end

/-- The row loop commutes with the change, by induction on the columns left (R162). -/
theorem runRow_rehost (base : Option Nat) (style : ResetStyle) (row : Word) (n c : Nat) (s : State) :
    runRow row n c (rehost base style s) = Result.mapNext (rehost base style) (runRow row n c s) := by
  induction n generalizing c s with
  | zero => rfl
  | succ n ih =>
    rw [runRow, runRow, pixelColor_rehost]
    cases pixelColor s c with
    | error stop => cases stop <;> rfl
    | ok color =>
      rw [rehost_sink]
      cases s.sink.accept with
      | none => rfl
      | some ready => exact ih (c + 1) (deliver (recordAt s row c color) ready s)

/-- A waiting row's step commutes with the change (R236). -/
theorem resumeRow_rehost (base : Option Nat) (style : ResetStyle) (j : RowJob) (s : State) :
    resumeRow j (rehost base style s) = Result.mapNext (rehost base style) (resumeRow j s) := by
  rw [resumeRow, resumeRow, rehost_sink]
  cases s.sink.accept with
  | none => rfl
  | some ready => exact runRow_rehost base style j.row _ _ (deliver j.offered ready (releaseRow s))

/-- Every command commutes with the change (R65). -/
theorem exec_rehost (base : Option Nat) (style : ResetStyle) (i : Instr) (s : State) :
    exec i (rehost base style s) = Result.mapNext (rehost base style) (exec i s) := by
  cases i with
  | nop | palWrite | palRead | closeBlock | errClear | quant | mix => rfl
  | cfgWrite sel value =>
    simp only [exec, execCfgWrite]
    cases Reg.ofSel sel with
    | none => rfl
    | some r => cases hg : r.group <;> cases ho : s.isOpen <;> simp [hg, ho]
  | cfgRead sel =>
    simp only [exec, execCfgRead]
    cases Reg.ofSel sel <;> simp
  | rowbufWrite addr word =>
    simp only [exec, execRowbufWrite]
    cases h : wordAddrOk s addr <;> simp [h]
  | rowbufRead addr =>
    simp only [exec, execRowbufRead]
    cases h : wordAddrOk s addr <;> simp [h]
  | openBlock =>
    simp only [exec, execOpenBlock, rehost_header, deriveRegs_rehost]
    cases deriveRegs s.params s.header <;> rfl
  | decodeRow row =>
    simp only [exec, execDecodeRow, rehost_isOpen, rehost_derived, runRow_rehost]
    split_ifs <;> rfl
  | decodePixel col =>
    simp only [exec, execDecodePixel, rehost_derived, pixelColor_rehost]
    by_cases h : s.derived.imgW.toNat ≤ col.toNat
    · simp [h]
    · rcases pixelColor s col.toNat with (_ | _) | _ <;> simp [h]
  | rowAddr row =>
    simp only [exec, execRowAddr, rehost_derived]
    by_cases h : s.derived.imgH.toNat ≤ row.toNat <;> simp [h]
  | palLookup idx =>
    simp only [exec, execPalLookup, lookupPalette_rehost]
    cases lookupPalette s idx <;> rfl
  | maskShift mask =>
    simp only [exec, execMaskShift]
    cases shiftOfMask mask <;> rfl

/-- The step commutes with the change: reset, the ports, a waiting row and the command on the port (R65, R230). -/
theorem step_rehost (base : Option Nat) (style : ResetStyle) (s : State) :
    step (rehost base style s) = Result.mapNext (rehost base style) (step s) := by
  cases hrst : s.rst with
  | true => simp [step, hrst]
  | false =>
    cases hrsp : s.rsp with
    | some r => cases hready : s.rspReady <;> simp [step, hrst, hrsp, hready]
    | none =>
      cases hjob : s.job with
      | some j =>
        rw [step_row hrst hrsp hjob, step_row (s := rehost base style s) hrst hrsp hjob]
        exact resumeRow_rehost base style j s
      | none =>
        cases hcmds : s.cmds with
        | nil => simp [step, hrst, hrsp, hjob, hcmds]
        | cons c rest =>
          cases hdec : decode c.word c.data with
          | ok i =>
            rw [step_command hrst hrsp hjob hcmds hdec,
              step_command (s := rehost base style s) hrst hrsp hjob hcmds hdec]
            exact exec_rehost base style i (acceptCommand rest s)
          | error e =>
            rw [step_illegal hrst hrsp hjob hcmds hdec,
              step_illegal (s := rehost base style s) hrst hrsp hjob hcmds hdec]
            rfl

/-- Settles O58: the step commutes with changing the two parameters. -/
theorem nothingReadsBlockBaseOrResetStyle : Obligations.NothingReadsBlockBaseOrResetStyle := by
  intro s t base style h
  calc step (rehost base style s)
      = Result.mapNext (rehost base style) (step s) := step_rehost base style s
    _ = .next (rehost base style t) := by rw [h]; rfl

end Sys2Proof.Machine
end

section
/-! PROOFS. 10_state.md: the invariant of every reachable state, the step and the ports, the registers and the palette, the
records of DECODE_ROW, what each command and each step leaves as it is, and the commands an assembler writes. -/

namespace Sys2Proof.Machine

open Sys2Proof

/-! ## The invariant -/

/-- Asserting reset gives a good state (R230). -/
theorem State.Inv.assertReset {s : State} (hi : s.Inv) : (Machine.assertReset s).Inv where
  params := hi.params
  rams := assertReset_wf s
  err := (by decide : legalErr 0)
  rsp _ h := nomatch h
  lifecycle := ⟨fun h => absurd h Bool.false_ne_true, fun _ => rfl⟩
  job _ h := nomatch h

/-- Taking the response keeps the invariant: a row that waits has not answered (R45, R46). -/
theorem State.Inv.takeResponse {s : State} (hi : s.Inv) {r : Response} (hr : s.rsp = some r) :
    (Machine.takeResponse r s).Inv where
  params := hi.params
  rams := hi.rams
  err := hi.err
  rsp _ h := nomatch h
  lifecycle := hi.lifecycle
  job j hj := by
    obtain ⟨-, -, -, hnone, -⟩ := hi.job j hj
    cases hr.symm.trans hnone

/-- A row that goes on, its record accepted, leaves a good state with no row waiting. -/
theorem State.Inv.goOn {s : State} (hi : s.Inv) (r : PixelRecord) (ready : SinkReady) :
    (deliver r ready (releaseRow s)).Inv where
  params := hi.params
  rams := hi.rams
  err := hi.err
  rsp := hi.rsp
  lifecycle := hi.lifecycle
  job _ h := nomatch h

/-- Settles O13: the invariant is kept by everything a step can be, and by each command. -/
theorem stepKeepsTheInvariant : Obligations.StepKeepsTheInvariant := by
  intro s t hi h
  rcases step_cases h with ⟨-, rfl⟩ | ⟨-, rfl⟩ | ⟨-, r, hr, rfl⟩ | ⟨-, hrsp, j, ready, hj, -, hrow⟩ |
    ⟨-, hrsp, hjob, c, rest, -, ⟨i, -, hexec⟩ | ⟨-, rfl⟩⟩
  · exact hi.assertReset
  · exact hi
  · exact hi.takeResponse hr
  · obtain ⟨hopen, hrowlt, hcol, -, -⟩ := hi.job j hj
    exact runRow_inv (hi.goOn j.offered ready) rfl hrsp hopen hrowlt
      (by simp only [deliver_derived, releaseRow_derived]; omega) hrow
  · exact exec_inv (hi.accept hjob rest) hjob hrsp hexec
  · exact (hi.accept hjob rest).raiseError hjob (by decide) 0

/-- PAL_SIZE as OPEN derives it (R36). -/
theorem DerivedOk.palSize_le {p : Params} {h : HeaderRegs} {d : DerivedRegs} (hd : DerivedOk p h d) :
    d.palSize.toNat ≤ 256 := by
  obtain ⟨hdepth, -, -, -, -, -, -, hdirect, hused, hdefault, -⟩ := hd
  by_cases hbpp : 16 ≤ h.bpp.toNat
  · simp [hdirect hbpp]
  · by_cases hc : h.colorsUsed = 0
    · have hpow : ∀ n ∈ [1, 4, 8, 16, 24, 32], n < 16 → 2 ^ n ≤ 256 := by decide
      exact hdefault (by omega) hc ▸ hpow _ hdepth (by omega)
    · obtain ⟨hsize, hle⟩ := hused (by omega) hc
      exact hsize ▸ hle

/-- The shifts as OPEN derives them (R38). -/
theorem DerivedOk.shift_lt {p : Params} {h : HeaderRegs} {d : DerivedRegs} (hd : DerivedOk p h d) :
    d.shift.r.toNat < 32 ∧ d.shift.g.toNat < 32 ∧ d.shift.b.toNat < 32 ∧ d.shift.a.toNat < 32 := by
  obtain ⟨-, -, -, -, -, -, -, -, -, -, hmasked, hplain⟩ := hd
  by_cases hm : h.bpp.toNat = 32 ∧ h.compression.toNat = 3
  · obtain ⟨-, ⟨hr, -⟩, ⟨hg, -⟩, ⟨hb, -⟩, ⟨ha, -⟩⟩ := hmasked hm
    exact ⟨hr, hg, hb, ha⟩
  · obtain ⟨-, hshift⟩ := hplain hm
    rw [hshift]
    decide

/-- Settles O15: open, the ranges are those of what OPEN derives; closed, every derived register is 0. -/
theorem derivedRegisterRanges : Obligations.DerivedRegisterRanges := by
  intro s hi
  cases hopen : s.isOpen with
  | false =>
    rw [hi.lifecycle.2 hopen]
    exact ⟨by decide, by decide, by decide, by decide, Nat.zero_le _, by decide⟩
  | true =>
    have hd := bpp_of_open hi hopen
    obtain ⟨-, hfits, hstride, hw⟩ := used_le_stride hi hopen
    obtain ⟨-, hwidth, hheight, -, -, hh, -⟩ := id hd
    refine ⟨hw ▸ hwidth, hh ▸ hheight, hd.palSize_le, ?_, hfits, hd.shift_lt⟩
    rw [hstride, stride_words, Spec.strideBytes, Nat.mul_mod_right]

/-! ## The step and the ports -/

/-- A word that no row of the opcode map selects does not decode (R83, R84). -/
theorem decode_error_of_unselected {cmd : Word} (data : Word)
    (h : ∀ row ∈ Spec.opcodeMap, cmd &&& row.2.2 ≠ row.2.1) : ∃ e, decode cmd data = .error e := by
  cases hdec : decode cmd data with
  | error e => exact ⟨e, rfl⟩
  | ok i =>
    obtain ⟨o, -, hlegal, -⟩ := decode_ok hdec
    exact absurd hlegal (h _ (opcodeMap_all o))

/-- Settles O5: the word does not decode, and the step raises IllegalCommand. -/
theorem illegalWordRaisesIllegalCommand : Obligations.IllegalWordRaisesIllegalCommand := by
  intro s c rest hrst hrsp hjob hcmds hmap
  obtain ⟨e, hdec⟩ := decode_error_of_unselected c.data hmap
  exact step_illegal hrst hrsp hjob hcmds hdec

/-- Settles O6: the last branch of the step. -/
theorem stepRunsTheDecodedCommand : Obligations.StepRunsTheDecodedCommand :=
  fun _ _ _ _ hrst hrsp hjob hcmds hdec => step_command hrst hrsp hjob hcmds hdec

/-- Settles O7: with a response offered the step looks only at the host's readiness. -/
theorem responseIsTakenBeforeTheNextCommand : Obligations.ResponseIsTakenBeforeTheNextCommand := by
  intro s r hrst hrsp
  refine ⟨by simp [cmdReady, hrsp], fun hready => ?_, fun hready => ?_⟩
  · simp [step, hrst, hrsp, hready, takeResponse]
  · simp [step, hrst, hrsp, hready]

/-- Settles O9: the waiting row's step is the same state, so any number of steps is (R236). -/
theorem stoppedSinkHangsTheRow : Obligations.StoppedSinkHangsTheRow := by
  intro s j hrst hrsp hjob hsink n
  have hstay : step s = .next s := by rw [step_row hrst hrsp hjob, resumeRow, hsink]; rfl
  exact run_fix hstay n

/-- After reset every register reads 0 (R23, R230). -/
theorem readReg_assertReset (s : State) (r : Reg) : readReg (assertReset s) r = 0 := by
  cases r with
  | STATUS => simp [readReg, statusWord]
  | _ => rfl

/-- Settles O10: the fields of the state that reset leaves. -/
theorem resetInputEffects : Obligations.ResetInputEffects := by
  intro s hrst
  exact ⟨assertReset s, by simp [step, hrst], readReg_assertReset s, rfl, rfl, rfl, rfl, rfl, rfl, rfl, rfl, rfl, rfl, rfl,
    rfl, rfl⟩

/-! ## Registers -/

/-- Settles O18: the three meanings, with the operations they call written out. -/
theorem nopCloseErrClearResult : Obligations.NopCloseErrClearResult :=
  fun s => ⟨rfl, rfl, succeed 0 (clearError s), rfl, rfl, rfl⟩

/-- A selector whose group is given names a register of that group. -/
theorem Reg.exists_of_group {sel : Byte} {g : RegGroup} (h : (Reg.ofSel sel).map Reg.group = some g) :
    ∃ r : Reg, r.sel = sel ∧ r.group = g := by
  obtain ⟨r, hr, hg⟩ := Option.map_eq_some_iff.1 h
  exact ⟨r, Reg.sel_of_ofSel hr, hg⟩

/-- Selectors 0x00 to 0x09 name the header group (R23). -/
theorem Reg.exists_header {sel : Byte} (h : sel.toNat ≤ 0x09) : ∃ r : Reg, r.sel = sel ∧ r.group = .header :=
  Reg.exists_of_group (by rw [Reg.group_of_sel, if_pos h])

/-- Selectors 0x0A to 0x0C name the draw group (R23). -/
theorem Reg.exists_draw {sel : Byte} (h : 0x0A ≤ sel.toNat) (h' : sel.toNat ≤ 0x0C) :
    ∃ r : Reg, r.sel = sel ∧ r.group = .draw :=
  Reg.exists_of_group (by rw [Reg.group_of_sel, if_neg (by omega), if_pos h'])

/-- A header register's write on the whole group (R101). -/
theorem writeReg_header {r : Reg} (hg : r.group = .header) (v : Word) (s : State) :
    writeReg r v s = { s with header := Spec.headerAfter s.header r.sel.toNat v } := by
  cases r <;> first | rfl | cases hg

/-- A draw register's write on the whole group (R101). -/
theorem writeReg_draw {r : Reg} (hg : r.group = .draw) (v : Word) (s : State) :
    writeReg r v s = { s with draw := Spec.drawAfter s.draw r.sel.toNat v } := by
  cases r <;> first | rfl | cases hg

section
variable {r : Reg} (v : Word) {s : State}

/-- CFG_WRITE of a header register closes an open block (R24, R101). -/
theorem cfgWrite_header_open (hg : r.group = .header) (ho : s.isOpen = true) :
    exec (.cfgWrite r.sel v) s = .next (succeed 0 (closeState (writeReg r v s))) := by
  simp [exec, execCfgWrite, Reg.ofSel_sel, hg, ho]

/-- CFG_WRITE of a header register of a closed block (R101). -/
theorem cfgWrite_header_closed (hg : r.group = .header) (ho : s.isOpen = false) :
    exec (.cfgWrite r.sel v) s = .next (succeed 0 (writeReg r v s)) := by
  simp [exec, execCfgWrite, Reg.ofSel_sel, hg, ho]

/-- CFG_WRITE of a draw register closes nothing (R24, R101). -/
theorem cfgWrite_draw (hg : r.group = .draw) :
    exec (.cfgWrite r.sel v) s = .next (succeed 0 (writeReg r v s)) := by
  simp [exec, execCfgWrite, Reg.ofSel_sel, hg]

end

/-- CFG_WRITE of a reserved or read-only selector (R101). -/
theorem cfgWrite_unwritable {sel : Byte} (h : 0x0D ≤ sel.toNat) (v : Word) (s : State) :
    exec (.cfgWrite sel v) s = .next (raiseError .illegalCommand 0 s) := by
  have hgroup := Reg.ofSel_cases sel
  simp only [exec, execCfgWrite]
  cases hr : Reg.ofSel sel with
  | none => rfl
  | some r =>
    rw [hr] at hgroup
    cases hg : r.group <;> simp only [hg] at hgroup ⊢ <;> omega

/-- Settles O19: by the group of the selector's register. -/
theorem cfgWriteResult : Obligations.CfgWriteResult := by
  intro s sel v
  refine ⟨fun hsel ho => ?_, fun hsel ho => ?_, fun hlo hhi => ?_, fun hsel => cfgWrite_unwritable hsel v s⟩
  · obtain ⟨r, rfl, hg⟩ := Reg.exists_header hsel
    rw [cfgWrite_header_open v hg ho, writeReg_header hg]
    rfl
  · obtain ⟨r, rfl, hg⟩ := Reg.exists_header hsel
    rw [cfgWrite_header_closed v hg ho, writeReg_header hg]
    rfl
  · obtain ⟨r, rfl, hg⟩ := Reg.exists_draw hlo hhi
    rw [cfgWrite_draw v hg, writeReg_draw hg]
    rfl

/-- The second register map agrees with the model's, for every selector (R23, R102). -/
theorem registerRead_eq (s : State) (sel : Byte) :
    Spec.registerRead s sel.toNat = (Reg.ofSel sel).map (readReg s) := by
  have hgroup := Reg.ofSel_cases sel
  cases hr : Reg.ofSel sel with
  | none =>
    rw [hr] at hgroup
    have hne : ∀ n, n ≤ 0x0C ∨ 0x10 ≤ n ∧ n ≤ 0x1C → sel.toNat ≠ n := by omega
    simp [Spec.registerRead, hne]
  | some r =>
    obtain rfl := Reg.sel_of_ofSel hr
    cases r with
    | BPP | BGCOLOR => exact congrArg some (setWidth_up _).symm
    | STATUS => exact congrArg some (statusWord_eq s).symm
    | _ => rfl

/-- Settles O20: the map answers what the selector names, and none for a reserved selector. -/
theorem cfgReadResult : Obligations.CfgReadResult := by
  intro s sel
  rw [registerRead_eq]
  simp only [exec, execCfgRead]
  cases Reg.ofSel sel <;> rfl

/-- CFG_READ of an assigned selector (R102). -/
theorem cfgRead_reg (r : Reg) (s : State) : exec (.cfgRead r.sel) s = .next (succeed (readReg s r) s) := by
  simp only [exec, execCfgRead, Reg.ofSel_sel]

/-- What a writable register holds of a value written to it (R25, R33). -/
theorem readReg_writeReg_same {r : Reg} (hg : r.group ≠ .derived) (v : Word) (s : State) :
    readReg (writeReg r v s) r =
      if r.sel.toNat = 0x00 ∨ r.sel.toNat = 0x0A then BitVec.ofNat 32 (v.toNat % 65536) else v := by
  have hlow : (v.setWidth 16).setWidth 32 = BitVec.ofNat 32 (v.toNat % 65536) := by
    rw [setWidth_up, BitVec.toNat_setWidth]
  cases r with
  | BPP | BGCOLOR => exact hlow
  | COMPRESSION | WIDTH | HEIGHT | COLORS_USED | MASK_R | MASK_G | MASK_B | MASK_A | PIXEL_OFFSET | ORIGIN_X | ORIGIN_Y => rfl
  | _ => exact absurd rfl hg

/-- A CFG_WRITE that stores leaves the register as the write does, whether or not it closes the block (R101). -/
theorem cfgWrite_stores {s t : State} {sel : Byte} {v : Word} (hsel : sel.toNat ≤ 0x0C)
    (h : exec (.cfgWrite sel v) s = .next t) :
    ∃ r : Reg, r.sel = sel ∧ r.group ≠ .derived ∧ readReg t r = readReg (writeReg r v s) r := by
  by_cases h9 : sel.toNat ≤ 0x09
  · obtain ⟨r, rfl, hg⟩ := Reg.exists_header h9
    have hw : r.group ≠ .derived := by rw [hg]; decide
    refine ⟨r, rfl, hw, ?_⟩
    cases ho : s.isOpen with
    | true =>
      cases (cfgWrite_header_open v hg ho).symm.trans h
      rw [readReg_succeed, readReg_closeState _ hw]
    | false =>
      cases (cfgWrite_header_closed v hg ho).symm.trans h
      rw [readReg_succeed]
  · obtain ⟨r, rfl, hg⟩ := Reg.exists_draw (by omega) hsel
    cases (cfgWrite_draw v hg).symm.trans h
    exact ⟨r, rfl, by rw [hg]; decide, readReg_succeed _ _ _⟩

/-- Settles O21: the register that the selector names reads as the write left it. -/
theorem cfgWriteThenRead : Obligations.CfgWriteThenRead := by
  intro s t sel v hsel h
  obtain ⟨r, rfl, hw, hread⟩ := cfgWrite_stores hsel h
  rw [cfgRead_reg, hread, readReg_writeReg_same hw]
  rfl

/-- Settles O22: a palette read after a write, at the same and at another index. -/
theorem paletteWriteAndRead : Obligations.PaletteWriteAndRead := fun s idx word =>
  ⟨rfl, succeed 0 (setPalWord idx word s), rfl, palWord_setPalWord_same s idx word,
    fun _ hj => palWord_setPalWord_other s word hj, fun _ => rfl, rfl⟩

/-! ## The records of DECODE_ROW -/

/-- The records of the first `k` columns, in rising column order (R160, R162). -/
theorem records_of_columns (s : State) (row : Word) (color : Nat → Color) (k : Nat) :
    ((List.range k).map fun d => recordAt s row (0 + d) (color (0 + d))) = (List.range k).map fun c =>
      ⟨BitVec.ofNat 32 (s.draw.originX.toNat + c), BitVec.ofNat 32 (s.draw.originY.toNat + row.toNat), color c⟩ := by
  simp only [recordAt_eq, Nat.zero_add]

/-- Settles O36: the loop emits every column and then answers. -/
theorem decodeRowEmitsEveryColumn : Obligations.DecodeRowEmitsEveryColumn := by
  intro s row color ho hrow hcolor hsink
  have hrun := runRow_emits row color s.derived.imgW.toNat 0 0 s
    (fun d hd => by rw [Nat.zero_add]; exact hcolor d hd) hsink
  rw [Nat.add_zero, records_of_columns] at hrun
  rw [decodeRow_run ho hrow, hrun]
  rfl

/-- The loop at a column whose record the sink does not take (R46). -/
theorem runRow_holds {s : State} {c : Nat} {color : Color} (row : Word) (n : Nat) (hc : pixelColor s c = .ok color)
    (hs : s.sink = .records 0) :
    runRow row (n + 1) c s = .next (holdRow ⟨row, c, recordAt s row c color⟩ s) := by
  simp [runRow, hc, hs, SinkReady.accept]

/-- Settles O38: the loop emits columns 0 to k - 1 and holds column k. -/
theorem decodeRowWaitsForTheSink : Obligations.DecodeRowWaitsForTheSink := by
  intro s row k color ho hrow hk hcolor hsink
  obtain ⟨n, hn⟩ : ∃ n, s.derived.imgW.toNat = k + (n + 1) := ⟨s.derived.imgW.toNat - (k + 1), by omega⟩
  have hrun := runRow_emits row color k (n + 1) 0 s
    (fun d hd => by rw [Nat.zero_add]; exact hcolor d hd.le) (by simp [hsink, SinkReady.takes])
  have hafter : s.sink.after k = .records 0 := by simp [hsink, SinkReady.after]
  rw [records_of_columns, hafter, Nat.zero_add] at hrun
  rw [decodeRow_run ho hrow, hn, hrun]
  refine Eq.trans (runRow_holds row n (hcolor k le_rfl) rfl) ?_
  rw [recordAt_eq]
  rfl

/-- A DECODE_ROW that waits is of an open block and a row of the image (R162). -/
theorem decodeRow_waiting {s t : State} {row : Word} (hj : s.job = none) (h : exec (.decodeRow row) s = .next t)
    (ht : t.job ≠ none) : s.isOpen = true ∧ row.toNat < s.derived.imgH.toNat := by
  cases ho : s.isOpen with
  | false => cases (decodeRow_closed row ho).symm.trans h; exact absurd hj ht
  | true =>
    by_cases hrow : row.toNat < s.derived.imgH.toNat
    · exact ⟨rfl, hrow⟩
    · cases (decodeRow_range ho (Nat.le_of_not_lt hrow)).symm.trans h; exact absurd hj ht

/-- Settles O39: the step lets the held row go on, and the row goes on as if it had never been held. -/
theorem sinkDelayCannotChangeARow : Obligations.SinkDelayCannotChangeARow := by
  intro s t row k later hrst hrsp hjob h ht
  obtain ⟨ho, hrow⟩ := decodeRow_waiting (s := { s with sink := .records k }) hjob h ht
  rw [decodeRow_run (s := { s with sink := .records k }) ho hrow] at h
  obtain ⟨htrst, htrsp, j, hj, hresume⟩ := runRow_resume later hjob (Nat.zero_add _) h ht
  have hstep : step { t with sink := later } = resumeRow j { t with sink := later } :=
    step_row (htrst.trans hrst) (htrsp.trans hrsp) hj
  rw [hstep, hresume, ← decodeRow_run (s := { s with sink := joinSink k later }) ho hrow]
  rfl

/-! ## Frames -/

section
variable {s t u : State}

theorem Answered.err_ne_zero (h : Answered u t) (hu : u.err ≠ 0) : t.err ≠ 0 := by
  rcases h with ⟨d, rfl⟩ | ⟨e, d, -, rfl⟩
  · exact hu
  · rwa [raiseError_err, stickyErr, if_neg hu]

/-- An answer is one response with a status the block raises, and leaves no row waiting that did not wait (R45, R200). -/
theorem Answered.responds (h : Answered u t) : (∃ r, t.rsp = some r ∧ legalErr r.status) ∧ t.job = u.job := by
  rcases h with ⟨d, rfl⟩ | ⟨e, d, he, rfl⟩
  · exact ⟨⟨_, rfl, (by decide : legalErr 0)⟩, rfl⟩
  · exact ⟨⟨_, rfl, code_legal e he⟩, rfl⟩

/-- How a row can end: it has added records and the sink has taken them, and it answers or waits (R46, R162). -/
def RowEnds (s t : State) : Prop :=
  ∃ more ready, Answered { s with records := s.records ++ more, sink := ready } t ∨
    ∃ j, t = holdRow j { s with records := s.records ++ more, sink := ready }

/-- The row loop ends as a row can. -/
theorem runRow_ends {row : Word} {n c : Nat} (h : runRow row n c s = .next t) : RowEnds s t := by
  obtain ⟨more, ready, rfl | ⟨k, e, -, -, he, rfl⟩ | ⟨k, color, -, -, -, rfl⟩⟩ := runRow_next h
  · exact ⟨more, ready, .inl (.inl ⟨_, rfl⟩)⟩
  · refine ⟨more, ready, .inl (.inr ⟨e, _, ?_, rfl⟩)⟩
    rcases pixelColor_error he with rfl | rfl <;> decide
  · exact ⟨more, ready, .inr ⟨_, rfl⟩⟩

theorem RowEnds.frame (h : RowEnds s t) :
    (∃ more, t.records = s.records ++ more) ∧
      t = { s with records := t.records, sink := t.sink, job := t.job, err := t.err, rsp := t.rsp } := by
  obtain ⟨more, ready, hans | ⟨j, rfl⟩⟩ := h
  · rw [hans.eq]
    exact ⟨⟨more, rfl⟩, rfl⟩
  · exact ⟨⟨more, rfl⟩, rfl⟩

theorem RowEnds.err_ne_zero (h : RowEnds s t) (hs : s.err ≠ 0) : t.err ≠ 0 := by
  obtain ⟨more, ready, hans | ⟨j, rfl⟩⟩ := h
  · exact hans.err_ne_zero hs
  · exact hs

end

/-- Settles O52: DECODE_ROW ends as a row can. -/
theorem decodeRowFrame : Obligations.DecodeRowFrame := by
  intro s t row h
  have hends : RowEnds s t := decodeRow_cases h
  obtain ⟨hmore, hframe⟩ := hends.frame
  exact ⟨fun a => by rw [hframe]; rfl, fun j => by rw [hframe]; rfl, hmore, hframe⟩

/-- Settles O49: a command ends with an answer, or is a DECODE_ROW that waits. -/
theorem oneResponsePerCommand : Obligations.OneResponsePerCommand := by
  intro i s t hrsp hjob h
  rcases exec_cases h with ⟨u, -, -, hujob, hans, -⟩ | ⟨row, j, more, ready, hi, rfl⟩
  · obtain ⟨⟨r, hr, hlegal⟩, htjob⟩ := hans.responds
    exact .inl ⟨r, hr, hlegal, htjob.trans (hujob.trans hjob)⟩
  · exact .inr ⟨hrsp, Option.some_ne_none j, row, hi⟩

section
variable {s t : State}

/-- Everything an OPEN can do (R105, R106). -/
theorem openBlock_cases (h : exec .openBlock s = .next t) :
    (∃ e, t = raiseError e 0 (closeState s)) ∨ ∃ d, t = succeed 0 { closeState s with isOpen := true, derived := d } := by
  simp only [exec, execOpenBlock] at h
  split at h <;> cases h
  · exact .inl ⟨_, rfl⟩
  · exact .inr ⟨_, rfl⟩

/-- OPEN, CLOSE and ERR_CLEAR write no configuration register (R105, R107, R109). -/
theorem lifecycle_frame {i : Instr} (hi : i.opcode ∈ [.openBlock, .closeBlock, .errClear]) (h : exec i s = .next t) :
    t = { s with isOpen := t.isOpen, derived := t.derived, err := t.err, rsp := t.rsp } := by
  cases i with
  | openBlock => rcases openBlock_cases h with ⟨e, rfl⟩ | ⟨d, rfl⟩ <;> rfl
  | closeBlock => cases h; rfl
  | errClear => cases h; rfl
  | _ => simp [Instr.opcode] at hi

/-- CFG_WRITE writes only registers, OPEN and the derived registers among them (R101). -/
theorem cfgWrite_frame {sel : Byte} {v : Word} (h : exec (.cfgWrite sel v) s = .next t) :
    t = { s with header := t.header, draw := t.draw, isOpen := t.isOpen, derived := t.derived, err := t.err,
                 rsp := t.rsp } := by
  rcases cfgWrite_cases h with rfl | ⟨r, -, ⟨-, rfl⟩ | ⟨-, -, rfl⟩ | ⟨-, -, rfl⟩⟩
  · rfl
  all_goals (rw [writeReg_eq r v s]; rfl)

/-- CFG_WRITE keeps every configuration register it does not name (R101). -/
theorem cfgWrite_keeps_other {sel : Byte} {v : Word} (h : exec (.cfgWrite sel v) s = .next t) {r : Reg} (hr : r.sel ≠ sel)
    (hg : r.group ≠ .derived) : readReg t r = readReg s r := by
  rcases cfgWrite_cases h with rfl | ⟨q, rfl, hstored⟩
  · exact readReg_raise s hg _ _
  · have hq : r ≠ q := fun e => hr (congrArg Reg.sel e)
    rcases hstored with ⟨-, rfl⟩ | ⟨-, -, rfl⟩ | ⟨-, -, rfl⟩
    · rw [readReg_succeed, readReg_writeReg_other s v hq]
    · rw [readReg_succeed, readReg_closeState _ hg, readReg_writeReg_other s v hq]
    · rw [readReg_succeed, readReg_writeReg_other s v hq]

/-- From selector 0x0A up CFG_WRITE neither opens nor closes (R24, R101). -/
theorem cfgWrite_keeps_open {sel : Byte} {v : Word} (h : exec (.cfgWrite sel v) s = .next t) (hsel : 0x0A ≤ sel.toNat) :
    t.isOpen = s.isOpen ∧ t.derived = s.derived := by
  rcases cfgWrite_cases h with rfl | ⟨q, rfl, ⟨-, rfl⟩ | ⟨hg, -, rfl⟩ | ⟨-, -, rfl⟩⟩
  · exact ⟨rfl, rfl⟩
  · simp
  · have := header_sel q hg
    omega
  · simp

end

/-- Settles O51: by command, with the frame of CFG_WRITE and that of the other three. -/
theorem lifecycleCommandsFrame : Obligations.LifecycleCommandsFrame := by
  intro i s t hi h
  have hframe : t = { s with header := t.header, draw := t.draw, isOpen := t.isOpen, derived := t.derived, err := t.err,
                             rsp := t.rsp } ∧ (i.opcode ≠ .cfgWrite → t.header = s.header ∧ t.draw = s.draw) := by
    by_cases hc : i.opcode = .cfgWrite
    · cases i with
      | cfgWrite sel v => exact ⟨cfgWrite_frame h, fun hne => absurd rfl hne⟩
      | _ => simp [Instr.opcode] at hc
    · have hrest := lifecycle_frame (by simpa [hc] using hi) h
      rw [hrest]
      exact ⟨rfl, fun _ => ⟨rfl, rfl⟩⟩
  obtain ⟨hframe, hconfig⟩ := hframe
  refine ⟨hframe, fun a => by rw [hframe]; rfl, fun j => by rw [hframe]; rfl, hconfig, ?_, ?_⟩
  · rintro sel v rfl
    exact ⟨fun r hr hg => cfgWrite_keeps_other h hr hg, cfgWrite_keeps_open h⟩
  · rintro rfl
    cases h
    exact ⟨rfl, rfl⟩

/-! ## Whole-machine rules -/

theorem errPending_iff (s : State) : errPending s = true ↔ s.err ≠ 0 := by simp [errPending]

/-- The only command that clears a pending error (R47, R202). -/
theorem exec_clears_error {i : Instr} {s t : State} (h : exec i s = .next t) (hs : s.err ≠ 0) (ht : t.err = 0) :
    i = .errClear := by
  rcases exec_cases h with ⟨u, hu | ⟨hi, -⟩, -, -, hans, -⟩ | ⟨row, j, more, ready, -, rfl⟩
  · exact absurd ht (hans.err_ne_zero (hu ▸ hs))
  · exact hi
  · exact absurd ht hs

/-- Settles O47: by everything a step can be. -/
theorem onlyErrClearOrResetClears : Obligations.OnlyErrClearOrResetClears := by
  intro s t h hs ht
  have hs : s.err ≠ 0 := (errPending_iff s).1 hs
  have ht : t.err = 0 := by simpa [errPending] using ht
  rcases step_cases h with ⟨hrst, -⟩ | ⟨-, rfl⟩ | ⟨-, r, -, rfl⟩ | ⟨-, -, j, ready, -, -, hrow⟩ |
    ⟨-, -, -, c, rest, hcmds, ⟨i, hdec, hexec⟩ | ⟨-, rfl⟩⟩
  · exact .inl hrst
  · exact absurd ht hs
  · exact absurd ht hs
  · exact absurd ht ((runRow_ends hrow).err_ne_zero hs)
  · obtain rfl := exec_clears_error hexec hs ht
    exact .inr ⟨c, rest, hcmds, hdec⟩
  · have hill : Answered (acceptCommand rest s) (illegalCommand (acceptCommand rest s)) :=
      .inr ⟨.illegalCommand, 0, by decide, rfl⟩
    exact absurd ht (hill.err_ne_zero hs)

/-- Settles O53: by everything a step can be; of the commands, those that exec_scope lists. -/
theorem onlyLifecycleCommandsWriteOpen : Obligations.OnlyLifecycleCommandsWriteOpen := by
  intro s t h hne
  have kept : ¬(t.isOpen = s.isOpen ∧ t.derived = s.derived) := fun ⟨ho, hd⟩ => hne.elim (· ho) (· hd)
  rcases step_cases h with ⟨hrst, -⟩ | ⟨-, rfl⟩ | ⟨-, r, -, rfl⟩ | ⟨-, -, j, ready, -, -, hrow⟩ |
    ⟨-, -, -, c, rest, hcmds, ⟨i, hdec, hexec⟩ | ⟨-, rfl⟩⟩
  · exact .inl hrst
  · exact absurd ⟨rfl, rfl⟩ kept
  · exact absurd ⟨rfl, rfl⟩ kept
  · obtain ⟨-, hframe⟩ := (runRow_ends hrow).frame
    exact absurd (by rw [hframe]; exact ⟨rfl, rfl⟩) kept
  · refine .inr ⟨c, rest, hcmds, ?_⟩
    obtain ⟨hopen, -⟩ := exec_scope hexec
    rcases hopen with rfl | rfl | ⟨sel, v, hsel, rfl⟩ | hsame
    · exact .inl hdec
    · exact .inr (.inl hdec)
    · exact .inr (.inr ⟨sel, v, hsel, hdec⟩)
    · exact absurd hsame kept
  · exact absurd ⟨rfl, rfl⟩ kept

/-- A list that stays as it is has only been added to, and nothing follows from its change. -/
theorem nothing_added {α : Type} {P : Prop} {old new : List α} (h : new = old) :
    (∃ more, new = old ++ more) ∧ (new ≠ old → P) :=
  ⟨⟨[], by rw [h, List.append_nil]⟩, absurd h⟩

/-- Settles O54: by everything a step can be; of the commands, only DECODE_ROW adds records. -/
theorem onlyDecodeRowEmits : Obligations.OnlyDecodeRowEmits := by
  intro s t h
  rcases step_cases h with ⟨-, rfl⟩ | ⟨-, rfl⟩ | ⟨-, r, -, rfl⟩ | ⟨-, -, j, ready, hjob, -, hrow⟩ |
    ⟨-, -, -, c, rest, hcmds, ⟨i, hdec, hexec⟩ | ⟨-, rfl⟩⟩
  · exact nothing_added rfl
  · exact nothing_added rfl
  · exact nothing_added rfl
  · obtain ⟨⟨more, hmore⟩, -⟩ := (runRow_ends hrow).frame
    refine ⟨⟨j.offered :: more, ?_⟩, fun _ => .inl (by rw [hjob]; exact Option.some_ne_none j)⟩
    rw [hmore, deliver_records, releaseRow_records, List.append_assoc, List.singleton_append]
  · obtain ⟨-, ⟨hmore, hrec⟩, -⟩ := exec_scope hexec
    refine ⟨hmore, fun hne => .inr ?_⟩
    rcases hrec with ⟨row, rfl⟩ | hsame
    · exact ⟨c, rest, row, hcmds, hdec⟩
    · exact absurd hsame hne
  · exact nothing_added rfl

/-! ## Unwritten RAM -/

/-- A byte that has been written reads alike on every block (R43). -/
theorem byteAt_epoch {s : State} {a : Nat} (epoch' : Nat) (h : (Ram.get s.rb a).isSome) :
    byteAt { s with epoch := epoch' } a = byteAt s a := by
  obtain ⟨v, hv⟩ := Option.isSome_iff_exists.1 h
  simp [byteAt, hv]

/-- A palette word that has been written reads alike on every block (R41). -/
theorem palWord_epoch {s : State} {i : Byte} (epoch' : Nat) (h : (Ram.get s.pal i.toNat).isSome) :
    palWord { s with epoch := epoch' } i = palWord s i := by
  obtain ⟨v, hv⟩ := Option.isSome_iff_exists.1 h
  simp [palWord, hv]

/-- After any command but ROWBUF_WRITE, another epoch with the old parameters and row buffer is another epoch. -/
theorem swapRam_epoch {i : Instr} {s t : State} (h : exec i s = .next t) (hi : i.opcode ≠ .rowbufWrite) (epoch' : Nat) :
    swapRam s.params s.rb epoch' t = { t with epoch := epoch' } := by
  obtain ⟨-, -, -, hrb, -, hparams⟩ := exec_scope h
  rcases hrb with ⟨a, w, rfl⟩ | hrb
  · exact absurd rfl hi
  · rw [swapRam, ← hparams, ← hrb]

/-- Settles O57: a column's color reads only loaded bytes and loaded palette words, and a decode reads the RAMs only through
the columns' colors. -/
theorem loadedRowsDecodeAlikeOnEveryBlock : Obligations.LoadedRowsDecodeAlikeOnEveryBlock := by
  intro s t epoch' x _ hpal hrow
  have hcolor : ∀ k, k < s.derived.imgW.toNat → pixelColor (swapRam s.params s.rb epoch' s) k = pixelColor s k :=
    fun k hk => pixelColor_congr (s := s) (u := { s with epoch := epoch' }) rfl rfl rfl rfl
      (fun a ha => byteAt_epoch epoch' (hrow a ha)) (fun i hi => palWord_epoch epoch' (hpal _ hi)) hk
  obtain ⟨hpixel, hrow⟩ := decode_swap (t := t) s.params s.rb epoch' x hcolor
  exact ⟨fun h => swapRam_epoch h nofun epoch' ▸ hpixel h, fun h => swapRam_epoch h nofun epoch' ▸ hrow h⟩

/-! ## The assembler -/

/-- The encoder's command decodes to its instruction (R82, R85, R87). -/
theorem decode_encode (i : Instr) : decode (encode i).word (encode i).data = .ok i := by
  rw [decode_of_legal _ (encode_legal i), assemble_encode]

/-- Every command the assembler writes, if it accepts, is the encoder's. -/
def WritesEncoded (e : Except AsmError (List Command)) : Prop := ∀ cs, e = .ok cs → ∀ c ∈ cs, ∃ i, c = encode i

section
variable {α : Type} {e : Except AsmError (List Command)}

theorem WritesEncoded.nil : WritesEncoded (.ok []) := by
  rintro _ ⟨⟩ c hc
  cases hc

theorem WritesEncoded.one (i : Instr) : WritesEncoded (.ok (asmOne i)) := by
  rintro _ ⟨⟩ c hc
  exact ⟨i, List.mem_singleton.1 hc⟩

theorem WritesEncoded.cons (i : Instr) (he : WritesEncoded e) :
    WritesEncoded (e >>= fun rest => pure (encode i :: rest)) := by
  intro cs h c hc
  obtain ⟨rest, hrest, hcs⟩ := bind_ok h
  cases hcs
  rcases List.mem_cons.1 hc with rfl | hc
  · exact ⟨i, rfl⟩
  · exact he rest hrest c hc

/-- Operands first, then the commands. -/
theorem WritesEncoded.bind {x : Except AsmError α} {f : α → Except AsmError (List Command)}
    (hf : ∀ a, WritesEncoded (f a)) : WritesEncoded (x >>= f) := by
  intro cs h
  obtain ⟨a, -, ha⟩ := bind_ok h
  exact hf a cs ha

end

theorem asmPalWords_writesEncoded (idx : Nat) (words : List Nat) : WritesEncoded (asmPalWords idx words) := by
  induction words generalizing idx with
  | nil => exact .nil
  | cons w ws ih => exact .bind fun i => .bind fun v => .cons (.palWrite i v) (ih (idx + 1))

theorem asmRowWords_writesEncoded (addr : Nat) (words : List Word) : WritesEncoded (asmRowWords addr words) := by
  induction words generalizing addr with
  | nil => exact .nil
  | cons v vs ih => exact .bind fun a => .cons (.rowbufWrite a v) (ih (addr + 4))

/-- Every line writes the encoder's commands: the 17 commands one, after as many operands as they have, and the
pseudo-instructions one for each item (R87, R88). -/
theorem assembleLine_writesEncoded (p : Params) (l : AsmLine) : WritesEncoded (assembleLine p l) := by
  cases l with
  | nop | openBlock | closeBlock | errClear => exact .one _
  | cfgRead | palRead | rowbufRead | decodeRow | decodePixel | rowAddr | palLookup | maskShift =>
    exact .bind fun _ => .one _
  | cfgWrite | palWrite | rowbufWrite => exact .bind fun _ => .bind fun _ => .one _
  | quant | mix => exact .bind fun _ => .bind fun _ => .bind fun _ => .one _
  | rowbufLoad addr bytes => exact .bind fun _ => asmRowWords_writesEncoded addr (packWords bytes)
  | palLoad idx words => exact .bind fun _ => asmPalWords_writesEncoded idx words
  | palRgb => exact .bind fun _ => .bind fun _ => .bind fun _ => .bind fun _ => .one _
  | setOrigin x y => exact .cons (.cfgWrite Reg.ORIGIN_X.sel (u32 x)) (.one (.cfgWrite Reg.ORIGIN_Y.sel (u32 y)))

/-- PAL_RGB's word has the color asked for, under either layout (R42, R88). -/
theorem paletteColor_rgbWord (layout : PaletteLayout) (r g b : Byte) :
    paletteColor layout (rgbWord layout r g b) = quantize r g b := by
  cases layout with
  | docAbgr =>
    obtain ⟨hr, hg, hb⟩ := rgb_fields_high r g b _ rfl
    simp only [paletteColor, rgbWord, byteOf, hr, hg, hb]
  | bmpBgrx =>
    obtain ⟨hr, hg, hb⟩ := rgb_fields r g b _ rfl
    simp only [paletteColor, rgbWord, byteOf, hr, hg, hb]

/-- PAL_RGB of operands in range writes one PAL_WRITE (R88). -/
theorem assembleLine_palRgb (p : Params) (i r g b : Byte) :
    assembleLine p (.palRgb i.toNat r.toNat g.toNat b.toNat) =
      .ok [encode (.palWrite i (rgbWord p.paletteLayout r g b))] := by
  simp only [assembleLine, asmField_toNat]
  rfl

/-- Settles O59: the assembler writes the encoder's commands, and these decode. -/
theorem assembledCommandsAreLegal : Obligations.AssembledCommandsAreLegal := by
  refine ⟨fun p l cs h c hc => ?_, fun p i r g b => ⟨_, assembleLine_palRgb p i r g b, ?_⟩⟩
  · obtain ⟨i, rfl⟩ := assembleLine_writesEncoded p l cs h c hc
    exact ⟨i, decode_encode i⟩
  · rw [← paletteColor_toNat, paletteColor_rgbWord, quantize_toNat]

end Sys2Proof.Machine
end

section
/-! PROOFS. 20_memory.md: no read leaves the row buffer, so a good state always steps; the word commands of the row buffer;
what writes the RAMs; and the bytes and bits a pixel does not depend on. -/

namespace Sys2Proof.Machine

open Sys2Proof

/-! ## Good states step -/

/-- A waiting row of a good state goes on or stays, for the columns left lie in the image (R66, R236). -/
theorem resumeRow_total {s : State} (hi : s.Inv) {j : RowJob} (hj : s.job = some j) : ∃ t, resumeRow j s = .next t := by
  obtain ⟨-, -, hcol, -, -⟩ := hi.job j hj
  unfold resumeRow
  cases s.sink.accept with
  | none => exact ⟨s, rfl⟩
  | some ready =>
    refine runRow_total fun k _ hk => noByte_of_inv (hi.goOn j.offered ready) ?_
    rw [deliver_derived, releaseRow_derived]
    omega

/-- Settles O14: by the branches of the step; only a waiting row and a command could stop it. -/
theorem goodStatesAlwaysStep : Obligations.GoodStatesAlwaysStep := by
  intro s hi
  cases hrst : s.rst with
  | true => exact ⟨assertReset s, by simp [step, hrst]⟩
  | false =>
    cases hrsp : s.rsp with
    | some r => cases hready : s.rspReady <;> simp [step, hrst, hrsp, hready]
    | none =>
      cases hjob : s.job with
      | some j =>
        rw [step_row hrst hrsp hjob]
        exact resumeRow_total hi hjob
      | none =>
        cases hcmds : s.cmds with
        | nil => exact ⟨s, by simp [step, hrst, hrsp, hjob, hcmds]⟩
        | cons c rest =>
          cases hdec : decode c.word c.data with
          | ok i =>
            rw [step_command hrst hrsp hjob hcmds hdec]
            exact exec_total (hi.accept hjob rest)
          | error e => exact ⟨_, step_illegal hrst hrsp hjob hcmds hdec⟩

/-- Settles O16: the stride holds the row, the buffer holds the stride, and so every column has its bytes. -/
theorem extractorsStayInTheRowBuffer : Obligations.ExtractorsStayInTheRowBuffer := by
  intro s hi hopen
  obtain ⟨hused, hfits, -, -⟩ := used_le_stride hi hopen
  exact ⟨hused, hfits, fun _ hc => noByte_of_inv hi hc⟩

/-! ## The word commands of the row buffer -/

/-- Bytes read as a little-endian number stay below the power of 256 of their count (R60). -/
theorem leValue_lt (bs : List Byte) : leValue bs < 256 ^ bs.length := by
  induction bs with
  | nil => exact Nat.one_pos
  | cons b bs ih =>
    have hb := b.isLt
    rw [leValue, List.length_cons, Nat.pow_succ]
    omega

theorem memRead_lt (s : State) (a n : Nat) : memRead s a n < 256 ^ n := by
  simpa [memRead] using leValue_lt ((List.range n).map fun k => byteAt s (a + k))

/-- A byte of a word, by number (R60). -/
theorem byteOf_eq (v : Word) (k : Nat) : byteOf v k = BitVec.ofNat 8 (v.toNat / 2 ^ (8 * k)) :=
  BitVec.eq_of_toNat_eq (by rw [byteOf_toNat, BitVec.toNat_ofNat])

section
variable {s : State} {addr : BitVec 16}

/-- ROWBUF_WRITE of a word inside the row buffer (R134). -/
theorem rowbufWrite_ok (hok : wordAddrOk s addr = true) (word : Word) :
    exec (.rowbufWrite addr word) s = .next (succeed 0 (memWriteWord addr.toNat word s)) := by
  simp [exec, execRowbufWrite, hok]

/-- ROWBUF_READ of a word inside the row buffer (R135). -/
theorem rowbufRead_ok (hok : wordAddrOk s addr = true) :
    exec (.rowbufRead addr) s = .next (succeed (BitVec.ofNat 32 (memRead s addr.toNat 4)) s) := by
  simp [exec, execRowbufRead, hok]

/-- The address check fails exactly off a multiple of 4 or past the end (R63, R65). -/
theorem wordAddrOk_eq_false_iff :
    wordAddrOk s addr = false ↔ addr.toNat % 4 ≠ 0 ∨ s.params.rowbufBytes < addr.toNat + 4 := by
  rw [Bool.eq_false_iff, Ne, wordAddrOk_iff, Decidable.not_and_iff_not_or_not, Nat.not_le]

end

/-- Settles O28: the store is one word at the address, and the answer changes nothing more. -/
theorem rowbufWriteResult : Obligations.RowbufWriteResult := by
  intro s addr word halign hrange
  refine ⟨_, rowbufWrite_ok ((wordAddrOk_iff s addr).2 ⟨halign, hrange⟩) word, fun k hk => ?_, fun a ha => ?_,
    fun _ => rfl, rfl⟩
  · rw [← byteOf_eq]
    exact byteAt_memWriteWord s addr.toNat word hk
  · exact byteAt_memWriteWord_other s word ha

/-- Settles O29: the four bytes as a number fit the response. -/
theorem rowbufReadResult : Obligations.RowbufReadResult := by
  intro s addr halign hrange
  refine ⟨_, rowbufRead_ok ((wordAddrOk_iff s addr).2 ⟨halign, hrange⟩), ?_⟩
  have hfits : memRead s addr.toNat 4 < 2 ^ 32 := memRead_lt s addr.toNat 4
  rw [BitVec.toNat_ofNat, Nat.mod_eq_of_lt hfits, memRead_four]

/-- Settles O31: the write leaves the check as it was, and the stored word reads back (R61). -/
theorem rowbufWriteThenRead : Obligations.RowbufWriteThenRead := by
  intro s t addr word halign hrange h
  have hok := (wordAddrOk_iff s addr).2 ⟨halign, hrange⟩
  cases (rowbufWrite_ok hok word).symm.trans h
  have hread : memRead (succeed 0 (memWriteWord addr.toNat word s)) addr.toNat 4 = word.toNat :=
    memRead_memWriteWord s addr.toNat word
  rw [rowbufRead_ok (s := succeed 0 (memWriteWord addr.toNat word s)) hok, hread, BitVec.ofNat_toNat, BitVec.setWidth_eq]
  rfl

/-- Settles O30: both commands make the same check, which fails. -/
theorem badWordAddress : Obligations.BadWordAddress := by
  intro s addr word hbad
  have hno := wordAddrOk_eq_false_iff.2 hbad
  constructor
  · simp only [exec, execRowbufWrite, hno]
    rfl
  · simp only [exec, execRowbufRead, hno]
    rfl

/-! ## What writes the RAMs -/

/-- What a byte reads as depends only on the row buffer and the epoch (R43). -/
theorem byteAt_congr {s t : State} (hrb : t.rb = s.rb) (hepoch : t.epoch = s.epoch) (a : Nat) :
    byteAt t a = byteAt s a := by
  rw [byteAt, byteAt, hrb, hepoch]

/-- What a palette word reads as depends only on the palette RAM and the epoch (R41). -/
theorem palWord_congr {s t : State} (hpal : t.pal = s.pal) (hepoch : t.epoch = s.epoch) (j : Byte) :
    palWord t j = palWord s j := by
  rw [palWord, palWord, hpal, hepoch]

/-- Settles O50: each of the ten commands answers and changes nothing else. -/
theorem answeringCommandsFrame : Obligations.AnsweringCommandsFrame := by
  intro i s t hi h
  have hframe := (answering hi h).eq
  exact ⟨hframe, byteAt_congr (by rw [hframe]) (by rw [hframe]), palWord_congr (by rw [hframe]) (by rw [hframe])⟩

/-- The next command the host sends is `i`. -/
def NextCommandIs (s : State) (i : Instr) : Prop := ∃ c rest, s.cmds = c :: rest ∧ decode c.word c.data = .ok i

/-- A step without reset keeps the epoch, and writes a RAM only for that RAM's own command (R68). -/
theorem step_ram_writes {s t : State} (h : step s = .next t) (hrst : s.rst = false) :
    t.epoch = s.epoch ∧ (t.pal = s.pal ∨ ∃ idx word, NextCommandIs s (.palWrite idx word)) ∧
      (t.rb = s.rb ∨ ∃ addr word, NextCommandIs s (.rowbufWrite addr word)) := by
  rcases step_cases h with ⟨hset, -⟩ | ⟨-, rfl⟩ | ⟨-, r, -, rfl⟩ | ⟨-, -, j, ready, -, -, hrow⟩ |
    ⟨-, -, -, c, rest, hcmds, ⟨i, hdec, hexec⟩ | ⟨-, rfl⟩⟩
  · exact absurd (hset.symm.trans hrst) (by decide)
  · exact ⟨rfl, .inl rfl, .inl rfl⟩
  · exact ⟨rfl, .inl rfl, .inl rfl⟩
  · obtain ⟨-, hframe⟩ := (runRow_ends hrow).frame
    rw [hframe]
    exact ⟨rfl, .inl rfl, .inl rfl⟩
  · have hnext : NextCommandIs s i := ⟨c, rest, hcmds, hdec⟩
    obtain ⟨-, -, hpal, hrb, hepoch, -⟩ := exec_scope hexec
    refine ⟨hepoch, hpal.symm.imp_right ?_, hrb.symm.imp_right ?_⟩
    · rintro ⟨idx, word, rfl⟩
      exact ⟨idx, word, hnext⟩
    · rintro ⟨addr, word, rfl⟩
      exact ⟨addr, word, hnext⟩
  · exact ⟨rfl, .inl rfl, .inl rfl⟩

/-- Settles O55: a RAM that the step does not write reads as before. -/
theorem onlyTheHostWritesTheRams : Obligations.OnlyTheHostWritesTheRams := by
  intro s t h hrst
  obtain ⟨hepoch, hpal, hrb⟩ := step_ram_writes h hrst
  constructor
  · rintro ⟨j, hne⟩
    rcases hpal with hpal | ⟨idx, word, c, rest, hcmds, hdec⟩
    · exact absurd (palWord_congr hpal hepoch j) hne
    · exact ⟨c, rest, idx, word, hcmds, hdec⟩
  · rintro ⟨a, hne⟩
    rcases hrb with hrb | ⟨addr, word, c, rest, hcmds, hdec⟩
    · exact absurd (byteAt_congr hrb hepoch a) hne
    · exact ⟨c, rest, addr, word, hcmds, hdec⟩

/-! ## What a pixel does not depend on -/

/-- A command keeps the parameters and the epoch, so to swap the row buffer after it is all that is swapped. -/
theorem swapRam_rb {i : Instr} {s t : State} (h : exec i s = .next t) (rb' : Memory) :
    swapRam s.params rb' s.epoch t = { t with rb := rb' } := by
  obtain ⟨-, -, -, -, hepoch, hparams⟩ := exec_scope h
  rw [swapRam, ← hepoch, ← hparams]

/-- Another row buffer that gives every column its color gives the decode commands the same responses and records. -/
theorem decode_with_rb {s : State} {rb' : Memory} (t : State) (x : Word)
    (hcolor : ∀ k, k < s.derived.imgW.toNat → pixelColor { s with rb := rb' } k = pixelColor s k) :
    (exec (.decodePixel x) s = .next t → exec (.decodePixel x) { s with rb := rb' } = .next { t with rb := rb' }) ∧
    (exec (.decodeRow x) s = .next t → exec (.decodeRow x) { s with rb := rb' } = .next { t with rb := rb' }) := by
  obtain ⟨hpixel, hrow⟩ := decode_swap (t := t) s.params rb' s.epoch x hcolor
  exact ⟨fun h => swapRam_rb h rb' ▸ hpixel h, fun h => swapRam_rb h rb' ▸ hrow h⟩

/-- Settles O56: a column's color reads only the bytes the row uses. -/
theorem paddingCannotChangeAPixel : Obligations.PaddingCannotChangeAPixel := by
  intro s t rb' x _ hbytes
  exact decode_with_rb t x fun _ hk =>
    pixelColor_congr (s := s) (u := { s with rb := rb' }) rfl rfl rfl rfl hbytes (fun _ _ => rfl) hk

/-- Settles O60: a column's color reads only the row's own bits. -/
theorem bitsPastTheLastColumnCannotChangeAPixel : Obligations.BitsPastTheLastColumnCannotChangeAPixel := by
  intro s t rb' x _ hbits
  exact decode_with_rb t x fun _ hk => pixelColor_congr_bits hbits hk

end Sys2Proof.Machine
end

section
/-! PROOFS. 30_encoding.md: decode and encode are inverse on the legal words, and a word is legal exactly when a row of the
opcode map selects it. -/

namespace Sys2Proof.Machine

open Sys2Proof

/-- Settles O1: the encoder writes legal words, and the operands assembled from them are the instruction's own. -/
theorem decodeOfEncode : Obligations.DecodeOfEncode := decode_encode

/-- The encoder writes a legal word back (R81, R84). -/
theorem encode_word_of_decode {cmd data : Word} {i : Instr} (h : decode cmd data = .ok i) : (encode i).word = cmd := by
  obtain ⟨o, -, hlegal, rfl⟩ := decode_ok h
  exact encode_assemble hlegal

/-- Settles O2: the word is the encoder's, and so it decodes with the encoder's DATA word as any encoded command does. -/
theorem encodeOfDecode : Obligations.EncodeOfDecode := by
  intro cmd data i h
  have hword : (encode i).word = cmd := encode_word_of_decode h
  refine ⟨hword, ?_⟩
  rw [← hword]
  exact decode_encode i

/-- A word decodes to a row's command exactly when it is legal for that row (R83, R85). -/
theorem legal_iff_decode (cmd data : Word) (o : Opcode) :
    cmd &&& o.mask = o.matchBits ↔ ∃ i, decode cmd data = .ok i ∧ i.opcode = o := by
  constructor
  · exact fun hlegal => ⟨o.assemble cmd data, decode_of_legal data hlegal, assemble_opcode o cmd data⟩
  · rintro ⟨i, hdec, rfl⟩
    obtain ⟨o, -, hlegal, rfl⟩ := decode_ok hdec
    rw [assemble_opcode]
    exact hlegal

/-- The printed row of a mnemonic selects a word exactly when the word decodes to that mnemonic's command (R83). -/
theorem row_selects_iff_decode (cmd data : Word) {row : Opcode × Word × Word} (hrow : row ∈ Spec.opcodeMap) :
    cmd &&& row.2.2 = row.2.1 ↔ ∃ i, decode cmd data = .ok i ∧ i.opcode = row.1 := by
  obtain ⟨hmatch, hmask⟩ := opcodeMap_spec row hrow
  rw [hmatch, hmask]
  exact legal_iff_decode cmd data row.1

/-- Settles O3: each printed row is the model's own, and every mnemonic has a row. -/
theorem decodeSelectsByMaskAndMatch : Obligations.DecodeSelectsByMaskAndMatch := by
  intro cmd data
  refine ⟨fun row hrow => row_selects_iff_decode cmd data hrow, decode_error_of_unselected data, ?_⟩
  rintro ⟨e, herr⟩ row hrow hsel
  obtain ⟨i, hok, -⟩ := (row_selects_iff_decode cmd data hrow).mp hsel
  rw [herr] at hok
  cases hok

/-- Settles O4: each word is legal for its row, and its fields are the operands. -/
theorem sampleWordsDecode : Obligations.SampleWordsDecode :=
  ⟨decode_of_legal (o := .nop) _ rfl, decode_of_legal (o := .cfgWrite) _ rfl, decode_of_legal (o := .rowbufWrite) _ rfl,
    decode_of_legal (o := .decodeRow) _ rfl, decode_of_legal (o := .quant) _ rfl, decode_of_legal (o := .mix) _ rfl⟩

end Sys2Proof.Machine
end

section
/-! PROOFS. 40_configuration.md: what OPEN answers, the decode commands on a closed block, and what a failing command leaves
unchanged. -/

namespace Sys2Proof.Machine

open Sys2Proof

/-! ## OPEN -/

/-- OPEN when a check fails: the error's answer in the closed state (R106). -/
theorem openBlock_error {s : State} {e : ErrorKind} (h : deriveRegs s.params s.header = .error e) :
    exec .openBlock s = .next (raiseError e 0 (closeState s)) := by
  simp only [exec, execOpenBlock, h]

/-- OPEN when every check passes: the block is open with what OPEN derives (R106). -/
theorem openBlock_ok {s : State} {d : DerivedRegs} (h : deriveRegs s.params s.header = .ok d) :
    exec .openBlock s = .next (succeed 0 { closeState s with isOpen := true, derived := d }) := by
  simp only [exec, execOpenBlock, h]

/-- Settles O23: the checks answer as the transcription of R106 does, and what they derive is what R35 to R39 say. -/
theorem openResult : Obligations.OpenResult := by
  intro s
  have hchecks := deriveRegs_spec s.params s.header
  constructor
  · intro code hcode
    rw [hcode] at hchecks
    obtain ⟨e, -, herror, rfl⟩ := hchecks
    exact openBlock_error herror
  · intro hnone
    rw [hnone] at hchecks
    obtain ⟨d, hd, -, -, -, -, hw, hh, hstride, hdirect, hused, hall, hwritten, hdefault⟩ := hchecks
    rw [stride_words] at hstride
    refine ⟨d, openBlock_ok hd, hw, hh, hstride, hdirect, fun hbpp hne => (hused hbpp hne).1, hall, fun hmask => ?_,
      hdefault⟩
    obtain ⟨hemask, ⟨-, hr⟩, ⟨-, hg⟩, ⟨-, hb⟩, ⟨-, ha⟩⟩ := hwritten hmask
    exact ⟨hemask, hr, hg, hb, ha⟩

/-! ## The closed block -/

/-- DECODE_PIXEL of a column at or above IMG_W (R161). -/
theorem decodePixel_range {s : State} {col : Word} (h : s.derived.imgW.toNat ≤ col.toNat) :
    exec (.decodePixel col) s = .next (raiseError .range 0 s) := if_pos h

/-- ROWADDR of a row at or above IMG_H (R133). -/
theorem rowAddr_range {s : State} {row : Word} (h : s.derived.imgH.toNat ≤ row.toNat) :
    exec (.rowAddr row) s = .next (raiseError .range 0 s) := if_pos h

/-- PAL_LOOKUP of an index at or above PAL_SIZE (R185). -/
theorem palLookup_outOfRange {s : State} {idx : Byte} (h : s.derived.palSize.toNat ≤ idx.toNat) :
    exec (.palLookup idx) s = .next (raiseError .outOfRangeIndex 0 s) := by
  simp only [exec, execPalLookup, lookup_error h]

/-- Settles O24: closed, IMG_W, IMG_H and PAL_SIZE are 0 (R40), and no operand is below 0. -/
theorem closedBlockCommands : Obligations.ClosedBlockCommands := by
  intro s x idx hi hclosed
  have hzero : s.derived = .closed := hi.lifecycle.2 hclosed
  have hw : s.derived.imgW.toNat ≤ x.toNat := by rw [hzero]; exact Nat.zero_le _
  have hh : s.derived.imgH.toNat ≤ x.toNat := by rw [hzero]; exact Nat.zero_le _
  have hp : s.derived.palSize.toNat ≤ idx.toNat := by rw [hzero]; exact Nat.zero_le _
  exact ⟨decodeRow_closed x hclosed, decodePixel_range hw, rowAddr_range hh, palLookup_outOfRange hp⟩

/-! ## Failing commands -/

section
variable {s t : State}

/-- A ROWBUF_WRITE stores one word, or refuses the address (R134). -/
theorem rowbufWrite_cases {addr : BitVec 16} {word : Word} (h : exec (.rowbufWrite addr word) s = .next t) :
    t = succeed 0 (memWriteWord addr.toNat word s) ∨ t = raiseError .badAddress 0 s := by
  simp only [exec, execRowbufWrite] at h
  split at h <;> cases h
  · exact .inl rfl
  · exact .inr rfl

/-- Every command but OPEN and DECODE_ROW only answers, or succeeds. -/
theorem answers_or_succeeds {i : Instr} (h : exec i s = .next t) (hopen : i ≠ .openBlock)
    (hrow : ∀ row, i ≠ .decodeRow row) : Answered s t ∨ ∃ d u, t = succeed d u := by
  by_cases hi : i.opcode ∈
      [.nop, .cfgRead, .palRead, .rowbufRead, .decodePixel, .rowAddr, .quant, .mix, .palLookup, .maskShift]
  · exact .inl (answering hi h)
  cases i with
  | cfgWrite sel v =>
    rcases cfgWrite_cases h with rfl | ⟨r, -, ⟨-, rfl⟩ | ⟨-, -, rfl⟩ | ⟨-, -, rfl⟩⟩
    · exact .inl (.inr ⟨_, _, by decide, rfl⟩)
    all_goals exact .inr ⟨_, _, rfl⟩
  | palWrite idx word => cases h; exact .inr ⟨_, _, rfl⟩
  | rowbufWrite addr word =>
    rcases rowbufWrite_cases h with rfl | rfl
    · exact .inr ⟨_, _, rfl⟩
    · exact .inl (.inr ⟨_, _, by decide, rfl⟩)
  | closeBlock => cases h; exact .inr ⟨_, _, rfl⟩
  | errClear => cases h; exact .inr ⟨_, _, rfl⟩
  | openBlock => exact absurd rfl hopen
  | decodeRow row => exact absurd rfl (hrow row)
  | _ => simp [Instr.opcode] at hi

/-- The response of a success has status 0 (R45). -/
theorem status_of_succeed {d : Word} {r : Response} (h : (succeed d s).rsp = some r) : r.status = 0 := by
  cases h
  rfl

end

/-- Settles O48: an OPEN that fails has closed the block, a DECODE_ROW that answers has added records, and every other command
only answers unless it succeeds. -/
theorem failingCommandsChangeNothing : Obligations.FailingCommandsChangeNothing := by
  intro i s t r hrsp h hr hfail
  refine ⟨?_, ?_, fun hopen hrow => ?_⟩
  · rintro rfl
    rcases openBlock_cases h with ⟨e, rfl⟩ | ⟨d, rfl⟩
    · rfl
    · exact absurd (status_of_succeed hr) hfail
  · rintro ⟨row, rfl⟩
    obtain ⟨more, ready, hans | ⟨j, rfl⟩⟩ := decodeRow_cases h
    · rw [hans.eq]
      exact ⟨⟨more, rfl⟩, rfl⟩
    · exact absurd (hrsp.symm.trans hr) (Option.some_ne_none r).symm
  · rcases answers_or_succeeds h hopen hrow with hans | ⟨d, u, rfl⟩
    · exact hans.eq
    · exact absurd (status_of_succeed hr) hfail

end Sys2Proof.Machine
end

section
/-! PROOFS. 41_scanline.md: the least padded row length, and where ROWADDR finds a row of the file. -/

namespace Sys2Proof.Machine

open Sys2Proof

/-! ## The stride -/

/-- Settles O25: the stride is the number of 32-bit words that hold the row's bits, rounded up, times 4. -/
theorem strideIsTheLeastPaddedLength : Obligations.StrideIsTheLeastPaddedLength := by
  intro bpp w
  rw [stride_words, Spec.strideBytes]
  refine ⟨Nat.mul_mod_right 4 _, by omega, fun m hm hbits => ?_⟩
  obtain ⟨words, rfl⟩ := Nat.dvd_of_mod_eq_zero hm
  have hwords : (bpp * w + 31) / 32 ≤ words := by omega
  exact Nat.mul_le_mul_left 4 hwords

/-! ## The row address -/

/-- Where a logical row starts in the file, modulo 2^32: as many strides past PIXEL_OFFSET as rows come after it (R132). -/
def rowStart (s : State) (row : Word) : Word := s.header.pixelOffset + (s.derived.imgH - row - 1) * s.derived.stride

section
variable {s : State} {row : Word}

/-- ROWADDR of a row below IMG_H (R133). -/
theorem rowAddr_ok (h : row.toNat < s.derived.imgH.toNat) :
    exec (.rowAddr row) s = .next (succeed (rowStart s row) s) := by
  have hexec : exec (.rowAddr row) s =
      .next (succeed (rowOffset s.header.pixelOffset s.derived.imgH s.derived.stride row) s) := if_neg (Nat.not_le.2 h)
  rw [hexec, rowOffset_eq h, rowStart]

theorem rowStart_last (h : row + 1 = s.derived.imgH) : rowStart s row = s.header.pixelOffset := by
  rw [rowStart, ← h]
  ring

theorem rowStart_succ : rowStart s row = rowStart s (row + 1) + s.derived.stride := by
  rw [rowStart, rowStart]
  ring

end

/-- Settles O26: ROWADDR by the one check it makes. -/
theorem rowAddrResult : Obligations.RowAddrResult := fun _ _ => ⟨rowAddr_ok, rowAddr_range⟩

/-- Settles O27: no row comes after the last one, and one row more comes after each earlier row than after the next. -/
theorem rowsAreStoredBottomUp : Obligations.RowsAreStoredBottomUp := by
  intro s row hrow
  rw [rowAddr_ok hrow]
  constructor
  · intro hlast
    rw [rowStart_last hlast]
    rfl
  · intro hnext
    have hnext' : (row + 1).toNat < s.derived.imgH.toNat := by bv_omega
    refine ⟨rowStart s (row + 1), rowAddr_ok hnext', ?_⟩
    rw [rowStart_succ]
    rfl

end Sys2Proof.Machine
end

section
/-! PROOFS. 42_pixel_decode.md: which errors a column can have; DECODE_PIXEL at each bit depth; the pixels and rows outside the
image; the row that meets a bad palette index; MASKSHIFT; and the fixed points of the blend. -/

namespace Sys2Proof.Machine

open Sys2Proof

/-! ## The colors of the six depths -/

section
variable {s : State} {c : Nat}

/-- An error of a column is that of its unpacker. -/
theorem color_of_ifInBuffer_error {off len : Nat} {color : Except ErrorKind Color} {e : ErrorKind}
    (h : ifInBuffer s off len color = .error (.error e)) : color = .error e := by
  unfold ifInBuffer at h
  split at h
  · cases color <;> cases h
    rfl
  · cases h

theorem ifInBuffer_ok {off len : Nat} (color : Color) (h : off + len ≤ s.params.rowbufBytes) :
    ifInBuffer s off len (.ok color) = .ok color := if_pos h

/-- The only error of the palette lookup (R182). -/
theorem lookupPalette_error {i : Byte} {e : ErrorKind} (h : lookupPalette s i = .error e) : e = .outOfRangeIndex := by
  by_cases hi : s.derived.palSize.toNat ≤ i.toNat
  · cases (lookup_error hi).symm.trans h
    rfl
  · cases (lookup_ok (Nat.lt_of_not_le hi)).symm.trans h

theorem pixelColor_16 (hbpp : s.header.bpp = 16) : pixelColor s c = ifInBuffer s (2 * c) 2 (.ok (pix16 s c)) := by
  simp [pixelColor, hbpp]

theorem pixelColor_24 (hbpp : s.header.bpp = 24) : pixelColor s c = ifInBuffer s (3 * c) 3 (.ok (pix24 s c)) := by
  simp [pixelColor, hbpp]

theorem pixelColor_32 (hbpp : s.header.bpp = 32) : pixelColor s c = ifInBuffer s (4 * c) 4 (.ok (pix32 s c)) := by
  simp [pixelColor, hbpp]

/-- The error of a column at a supported depth: the palette lookup's, for no other unpacker has one (R151 to R157). -/
theorem pixelColor_error_of_supported {e : ErrorKind} (hdepth : s.header.bpp.toNat ∈ [1, 4, 8, 16, 24, 32])
    (h : pixelColor s c = .error (.error e)) : e = .outOfRangeIndex ∧ s.header.bpp.toNat ≤ 8 := by
  simp only [List.mem_cons, List.not_mem_nil, or_false] at hdepth
  unfold pixelColor at h
  rcases hdepth with hb | hb | hb | hb | hb | hb <;> simp only [hb] at h ⊢
  case inl | inr.inl | inr.inr.inl => exact ⟨lookupPalette_error (color_of_ifInBuffer_error h), by decide⟩
  all_goals cases color_of_ifInBuffer_error h

/-- `pix16` by number: no masks, no palette, no quantization (R155). -/
theorem pix16_toNat (s : State) (c : Nat) :
    (pix16 s c).toNat = (byteAt s (2 * c)).toNat + 256 * (byteAt s (2 * c + 1)).toNat := by
  have hlt : memRead s (2 * c) 2 < 2 ^ 16 := memRead_lt s (2 * c) 2
  rw [pix16, BitVec.toNat_ofNat, Nat.mod_eq_of_lt hlt, memRead_two]

/-- `pix32` from the channels by number (R157, R158). -/
theorem pix32_eq (s : State) (c : Nat) :
    pix32 s c = blend s.params s.draw.bgcolor
      (quantize (Spec.channel (Spec.pixel32 s c) s.derived.emask.r s.derived.shift.r)
        (Spec.channel (Spec.pixel32 s c) s.derived.emask.g s.derived.shift.g)
        (Spec.channel (Spec.pixel32 s c) s.derived.emask.b s.derived.shift.b))
      (Spec.channel (Spec.pixel32 s c) s.derived.emask.a s.derived.shift.a) := by
  simp only [pix32, extractChannel_eq]

theorem blend_bgIsA {p : Params} (h : p.blendOrder = .bgIsA) (bg pixel : Color) (alpha : Byte) :
    blend p bg pixel alpha = mixColor p.mixRounding bg pixel alpha := by
  simp only [blend, h]

theorem blend_pixelIsA {p : Params} (h : p.blendOrder = .pixelIsA) (bg pixel : Color) (alpha : Byte) :
    blend p bg pixel alpha = mixColor p.mixRounding pixel bg alpha := by
  simp only [blend, h]

end

/-- Settles O17: OPEN admits the six depths only, and only the indexed ones can miss the palette. -/
theorem onlyIndexedDepthsCanFail : Obligations.OnlyIndexedDepthsCanFail := by
  intro s c e hi hopen _ herror
  obtain ⟨hdepth, -⟩ := bpp_of_open hi hopen
  exact pixelColor_error_of_supported hdepth herror

/-! ## DECODE_PIXEL -/

section
variable {s : State} {col : Word}

/-- DECODE_PIXEL of a column of the image that has a color (R161). -/
theorem decodePixel_ok {color : Color} (hcol : col.toNat < s.derived.imgW.toNat)
    (hcolor : pixelColor s col.toNat = .ok color) :
    exec (.decodePixel col) s = .next (succeed (BitVec.ofNat 32 color.toNat) s) := by
  simp only [exec, execDecodePixel, if_neg (Nat.not_le.2 hcol), hcolor, color_setWidth]

/-- DECODE_PIXEL of a column of the image that raises an error (R161). -/
theorem decodePixel_error {e : ErrorKind} (hcol : col.toNat < s.derived.imgW.toNat)
    (herror : pixelColor s col.toNat = .error (.error e)) :
    exec (.decodePixel col) s = .next (raiseError e 0 s) := by
  simp only [exec, execDecodePixel, if_neg (Nat.not_le.2 hcol), herror]

end

/-- Settles O32: the column's index is the spec's, and its color or its error is that of the palette lookup. -/
theorem decodePixelIndexed : Obligations.DecodePixelIndexed := by
  intro s col i hbpp hcol hbyte hindex
  have hi : columnIndex s col.toNat = i := BitVec.eq_of_toNat_eq ((columnIndex_toNat s col.toNat).trans hindex.symm)
  have hpixel := pixelColor_indexed hbpp hbyte
  rw [hi] at hpixel
  constructor
  · intro hlt
    rw [lookup_ok hlt] at hpixel
    rw [decodePixel_ok hcol hpixel, paletteColor_toNat]
    rfl
  · intro hge
    rw [lookup_error hge] at hpixel
    exact decodePixel_error hcol hpixel

/-- Settles O33: the two unpackers by number. -/
theorem decodePixelDirect : Obligations.DecodePixelDirect := by
  intro s col hcol
  constructor
  · intro hbpp hbytes
    rw [decodePixel_ok hcol ((pixelColor_16 hbpp).trans (ifInBuffer_ok _ hbytes)), pix16_toNat]
    rfl
  · intro hbpp hbytes
    rw [decodePixel_ok hcol ((pixelColor_24 hbpp).trans (ifInBuffer_ok _ hbytes)), pix24, quantize_toNat]
    rfl

/-- Settles O34: the channels by number, and the mix in the operand order of the block. -/
theorem decodePixelBlended : Obligations.DecodePixelBlended := by
  rintro s col r g b a p hbpp hcol hbytes rfl rfl rfl rfl hp
  have hexec := decodePixel_ok hcol ((pixelColor_32 hbpp).trans (ifInBuffer_ok _ hbytes))
  rw [pix32_eq, ← BitVec.eq_of_toNat_eq (hp.trans (quantize_toNat _ _ _).symm)] at hexec
  constructor
  · intro horder
    rw [hexec, blend_bgIsA horder, mixColor_toNat]
    rfl
  · intro horder
    rw [hexec, blend_pixelIsA horder, mixColor_toNat]
    rfl

/-! ## Outside the image -/

/-- Settles O35: by the range checks of the two commands. -/
theorem decodeOutsideTheImage : Obligations.DecodeOutsideTheImage := fun _ _ => ⟨decodePixel_range, decodeRow_range⟩

/-! ## A row with a bad palette index -/

/-- The loop at a column whose palette index is out of range (R162). -/
theorem runRow_outOfRange {s : State} {c : Nat} (row : Word) (n : Nat)
    (hc : pixelColor s c = .error (.error .outOfRangeIndex)) :
    runRow row (n + 1) c s = .next (raiseError .outOfRangeIndex (BitVec.ofNat 32 c) s) := by
  simp [runRow, hc, rowErrorData]

/-- Settles O37: the loop emits columns 0 to k - 1 and ends at column k. -/
theorem decodeRowStopsAtTheBadColumn : Obligations.DecodeRowStopsAtTheBadColumn := by
  intro s row k color ho hrow hk hcolor hbad hsink
  obtain ⟨n, hn⟩ : ∃ n, s.derived.imgW.toNat = k + (n + 1) := ⟨s.derived.imgW.toNat - (k + 1), by omega⟩
  have hrun := runRow_emits row color k (n + 1) 0 s (fun d hd => by rw [Nat.zero_add]; exact hcolor d hd) hsink
  rw [records_of_columns, Nat.zero_add] at hrun
  rw [decodeRow_run ho hrow, hn, hrun]
  exact runRow_outOfRange row n hbad

/-! ## MASKSHIFT -/

/-- MASKSHIFT of a mask that has a shift (R163). -/
theorem maskShift_ok {s : State} {mask n : Word} (h : shiftOfMask mask = .ok n) :
    exec (.maskShift mask) s = .next (succeed n s) := by
  simp only [exec, execMaskShift, h]

/-- Settles O40: the count of R150 stops at the lowest set bit, and mask 0 has none. -/
theorem maskShiftResult : Obligations.MaskShiftResult := by
  intro s mask
  constructor
  · intro hne
    obtain ⟨n, hn, hlowest, hshift⟩ := shiftOfMask_ok hne
    exact ⟨n, hn, hlowest, maskShift_ok hshift⟩
  · rintro rfl
    rfl

/-! ## The fixed points of the blend -/

section
variable (m : MixRounding)

theorem mixChannel_weight_zero (ca cb : Nat) : mixChannel m 0 ca cb = ca := by
  cases m <;> simp [mixChannel]

theorem mixChannel_weight_max (ca cb : Nat) : mixChannel m 255 ca cb = cb := by
  cases m <;> simp [mixChannel]

/-- Weight 0 is the first operand (R186). -/
theorem mixColor_weight_zero (a b : Color) : mixColor m a b 0 = a :=
  color_ext (by simp [mixColor_lanes, mixChannel_weight_zero])

/-- Weight 255 is the second operand (R186). -/
theorem mixColor_weight_max (a b : Color) : mixColor m a b 255 = b :=
  color_ext (by simp [mixColor_lanes, mixChannel_weight_max])

end

/-- Settles O45: the mix at the two ends of its weight, in either operand order. -/
theorem blendFixedPoints : Obligations.BlendFixedPoints := by
  intro p bg pixel
  constructor
  · intro horder
    rw [blend_bgIsA horder, blend_bgIsA horder]
    exact ⟨mixColor_weight_zero _ bg pixel, mixColor_weight_max _ bg pixel⟩
  · intro horder
    rw [blend_pixelIsA horder, blend_pixelIsA horder]
    exact ⟨mixColor_weight_zero _ pixel bg, mixColor_weight_max _ pixel bg⟩

end Sys2Proof.Machine
end

section
/-! PROOFS. 43_color_datapath.md: the answers of QUANT, MIX and PAL_LOOKUP; the laws of the mix; what quantization loses. -/

namespace Sys2Proof.Machine

open Sys2Proof

/-! ## The answers -/

section
variable (s : State)

/-- QUANT's answer by number (R180, R183). -/
theorem quant_exec (r g b : Byte) :
    exec (.quant r g b) s = .next (succeed (BitVec.ofNat 32 (Spec.quantized r g b)) s) := by
  rw [← quantize_toNat, ← color_setWidth]
  rfl

/-- MIX's answer by number (R181, R184). -/
theorem mix_exec (a b : Color) (w : Byte) :
    exec (.mix a b w) s = .next (succeed (BitVec.ofNat 32 (Spec.mixedColor s.params.mixRounding a b w)) s) := by
  rw [← mixColor_toNat, ← color_setWidth]
  rfl

end

/-- PAL_LOOKUP of an index below PAL_SIZE, by number (R182, R185). -/
theorem palLookup_ok {s : State} {idx : Byte} (h : idx.toNat < s.derived.palSize.toNat) :
    exec (.palLookup idx) s =
      .next (succeed (BitVec.ofNat 32 (Spec.paletteQuantized s.params.paletteLayout (palWord s idx))) s) := by
  simp only [exec, execPalLookup, lookup_ok h, color_setWidth, paletteColor_toNat]

/-- Settles O41: the two answers by number. -/
theorem quantAndMixResult : Obligations.QuantAndMixResult :=
  fun s r g b colorA colorB w => ⟨quant_exec s r g b, mix_exec s colorA colorB w⟩

/-- Settles O42: PAL_LOOKUP by the one check it makes. -/
theorem palLookupResult : Obligations.PalLookupResult := fun _ _ => ⟨palLookup_ok, palLookup_outOfRange⟩

/-! ## The laws of the mix -/

/-- Swapping the operands and complementing the weight swaps the two products (R186). -/
theorem mixChannel_swap (m : MixRounding) {w : Nat} (hw : w ≤ 255) (ca cb : Nat) :
    mixChannel m w ca cb = mixChannel m (255 - w) cb ca := by
  have hback : 255 - (255 - w) = w := Nat.sub_sub_self hw
  cases m with
  | twoFloor => rw [mixChannel, mixChannel, hback, Nat.add_comm]
  | oneFloor => rw [mixChannel, mixChannel, hback, Nat.add_comm (ca * _)]

/-- The two products of a channel mixed with itself add up to 255 times the channel. -/
theorem complementary_products {w : Nat} (hw : w ≤ 255) (c : Nat) : c * (255 - w) + c * w = 255 * c := by
  rw [← Nat.mul_add, Nat.sub_add_cancel hw, Nat.mul_comm]

theorem mixChannel_oneFloor_self {w : Nat} (hw : w ≤ 255) (c : Nat) : mixChannel .oneFloor w c c = c := by
  rw [mixChannel, complementary_products hw, Nat.mul_div_cancel_left c (by decide)]

/-- The two floors lose the two remainders, which add up to 255 unless both are 0 (R186). -/
theorem mixChannel_twoFloor_self {w : Nat} (hw : w ≤ 255) (c : Nat) :
    mixChannel .twoFloor w c c = if 255 ∣ c * w then c else c - 1 := by
  have hsum := complementary_products hw c
  rw [mixChannel]
  split <;> omega

theorem weight_le (w : Byte) : w.toNat ≤ 255 := Nat.le_of_lt_succ w.isLt

theorem weight_complement_toNat (w : Byte) : (255 - w).toNat = 255 - w.toNat := by bv_omega

theorem mixColor_swap (m : MixRounding) (a b : Color) (w : Byte) : mixColor m a b w = mixColor m b a (255 - w) :=
  color_ext (by simp only [mixColor_lanes, weight_complement_toNat, ← mixChannel_swap m (weight_le w)])

theorem mixColor_oneFloor_self (a : Color) (w : Byte) : mixColor .oneFloor a a w = a :=
  color_ext (by simp only [mixColor_lanes, mixChannel_oneFloor_self (weight_le w)])

/-- Settles O43: each law holds channel by channel, and a color is its three channels. -/
theorem mixLaws : Obligations.MixLaws := by
  intro m a b w
  have hw := weight_le w
  refine ⟨?_, ⟨mixColor_weight_zero m a b, mixColor_weight_max m a b⟩, mixColor_swap m a b w,
    mixColor_oneFloor_self a w, ?_⟩
  · rw [mixColor_lanes]
    exact ⟨mixChannel_le m hw, mixChannel_le m hw, mixChannel_le m hw⟩
  · rw [mixColor_lanes]
    exact ⟨mixChannel_twoFloor_self hw _, mixChannel_twoFloor_self hw _, mixChannel_twoFloor_self hw _⟩

/-! ## What quantization loses -/

/-- Larger channels give no smaller code (R187). -/
theorem quantize_mono {r g b r' g' b' : Byte} (hr : r ≤ r') (hg : g ≤ g') (hb : b ≤ b') :
    quantize r g b ≤ quantize r' g' b' := by
  have hr8 : r.toNat / 8 ≤ r'.toNat / 8 := Nat.div_le_div_right hr
  have hg4 : g.toNat / 4 ≤ g'.toNat / 4 := Nat.div_le_div_right hg
  have hb8 : b.toNat / 8 ≤ b'.toNat / 8 := Nat.div_le_div_right hb
  rw [BitVec.le_def, quantize_toNat, quantize_toNat, Spec.quantized, Spec.quantized, Spec.color565, Spec.color565]
  omega

/-- Two codes are equal exactly when their channels agree above the dropped bits (R187). -/
theorem quantize_eq_iff {r g b r' g' b' : Byte} :
    quantize r g b = quantize r' g' b' ↔
      r.toNat / 8 = r'.toNat / 8 ∧ g.toNat / 4 = g'.toNat / 4 ∧ b.toNat / 8 = b'.toNat / 8 := by
  have hlanes : quantize r g b = quantize r' g' b' ↔ unpack565 (quantize r g b) = unpack565 (quantize r' g' b') :=
    ⟨congrArg unpack565, color_ext⟩
  rw [hlanes, quantize_lanes, quantize_lanes, Lanes.mk.injEq]

/-- A byte that holds a channel above zero bits: dividing takes the channel out again. -/
theorem byte_of_multiple_div {k n : Nat} (hk : 0 < k) (h : k * n < 2 ^ 8) : (BitVec.ofNat 8 (k * n)).toNat / k = n := by
  rw [BitVec.toNat_ofNat, Nat.mod_eq_of_lt h, Nat.mul_div_cancel_left n hk]

/-- Each code is that of its own channels with zeros below them (R187). -/
theorem quantize_surjective (c : Color) : ∃ r g b : Byte, quantize r g b = c := by
  obtain ⟨hr, hg, hb⟩ := unpack565_bounds c
  refine ⟨BitVec.ofNat 8 (8 * (unpack565 c).r), BitVec.ofNat 8 (4 * (unpack565 c).g),
    BitVec.ofNat 8 (8 * (unpack565 c).b), color_ext ?_⟩
  rw [quantize_lanes, byte_of_multiple_div (by decide) (by omega), byte_of_multiple_div (by decide) (by omega),
    byte_of_multiple_div (by decide) (by omega)]

/-- Settles O44: the channels of a code are the quotients by 8, 4 and 8. -/
theorem quantizationBounds : Obligations.QuantizationBounds := by
  refine ⟨fun r g b => ?_, fun _ _ _ _ _ _ => quantize_mono, fun _ _ _ _ _ _ => quantize_eq_iff,
    quantize_surjective⟩
  rw [quantize_lanes]
  dsimp only
  omega

end Sys2Proof.Machine
end

section
/-! PROOFS. 60_exceptions.md: the first error wins, and an idle block changes nothing. -/

namespace Sys2Proof.Machine

open Sys2Proof

/-! ## The first error -/

section
variable {s t u : State} {r : Response}

/-- An answer with an error code is an error, which ERR takes if it is the first; an answer with status 0 is a success
(R45, R202). -/
theorem Answered.err_of_status (h : Answered u t) (hr : t.rsp = some r) :
    (r.status ≠ 0 → t.err = Spec.errAfter u.err r.status) ∧ (r.status = 0 → t.err = u.err) := by
  rcases h with ⟨d, rfl⟩ | ⟨e, d, -, rfl⟩ <;> cases hr
  · exact ⟨fun hfail => absurd rfl hfail, fun _ => rfl⟩
  · exact ⟨fun _ => errAfter_eq u.err e, fun hok => absurd hok (code_ne_zero e)⟩

/-- ERR_CLEAR succeeds and leaves ERR 0 (R109). -/
theorem errClear_succeeds (h : exec .errClear s = .next t) : t = succeed 0 (clearError s) := by
  cases h
  rfl

end

/-- Settles O46: ERR_CLEAR only succeeds; any other command that has answered did so from a state with the same ERR. -/
theorem firstErrorWins : Obligations.FirstErrorWins := by
  intro i s t r hrsp h hr
  by_cases hi : i = .errClear
  · subst hi
    obtain rfl := errClear_succeeds h
    exact ⟨fun hfail => absurd (status_of_succeed hr) hfail, fun _ hne => absurd rfl hne, fun _ => rfl⟩
  · obtain ⟨hfails, hsucceeds⟩ :
        (r.status ≠ 0 → t.err = Spec.errAfter s.err r.status) ∧ (r.status = 0 → t.err = s.err) := by
      rcases exec_cases h with ⟨u, hu | ⟨hclear, -⟩, -, -, hans, -⟩ | ⟨row, j, more, ready, -, rfl⟩
      · exact hu ▸ hans.err_of_status hr
      · exact absurd hclear hi
      · exact absurd (hrsp.symm.trans hr) (Option.some_ne_none r).symm
    exact ⟨hfails, fun hok _ => hsucceeds hok, fun hclear => absurd hclear hi⟩

/-! ## The idle block -/

/-- With nothing in progress and no command on the port a step is the same state (R212). -/
theorem step_idle {s : State} (hrst : s.rst = false) (hrsp : s.rsp = none) (hjob : s.job = none) (hcmds : s.cmds = []) :
    step s = .next s := by
  simp [step, hrst, hrsp, hjob, hcmds]

/-- Settles O8: the idle step is the same state, so any number of steps is. -/
theorem idleBlockChangesNothing : Obligations.IdleBlockChangesNothing := fun _ hrst hrsp hjob hcmds n =>
  run_fix (step_idle hrst hrsp hjob hcmds) n

end Sys2Proof.Machine
end

section
/-! PROOFS. 70_reset_and_hazards.md: what the registers and the ports hold after reset. -/

namespace Sys2Proof.Machine

open Sys2Proof

/-- The reset input leaves every register of the state after reset as it is: no register reads `epoch`, the one field that
differs. -/
theorem readReg_assertReset_resetWith (p : Params) (r : Reg) :
    readReg (assertReset (State.resetWith p)) r = readReg (State.resetWith p) r := by
  have hepoch : assertReset (State.resetWith p) = { State.resetWith p with epoch := 1 } := rfl
  rw [hepoch]
  cases r <;> rfl

/-- Every register of R23 reads 0 after reset, as it does when the reset input is asserted (R230). -/
theorem readReg_resetWith (p : Params) (r : Reg) : readReg (State.resetWith p) r = 0 := by
  rw [← readReg_assertReset_resetWith, readReg_assertReset]

/-- Settles O11: the registers read 0, and ERR, the response port and the waiting row are empty as the state is written. -/
theorem resetStateValues : Obligations.ResetStateValues :=
  fun p => ⟨readReg_resetWith p, rfl, rfl, rfl, rfl, rfl⟩

end Sys2Proof.Machine
end
